-- ==== Sys2Proof/Word.lean ====
section
/-! DEFINITION. The fixed widths of the block (spec/00_scope.md R6, R9; spec/10_state.md R20). -/

namespace Sys2Proof

/-- A byte operand or a string byte (R6). -/
abbrev Byte := BitVec 8

/-- A nibble, the 4-bit half of a byte (R6, R12). -/
abbrev Nibble := BitVec 4

/-- A string-space address, `W_SP = 16` bits (R5, R52). -/
abbrev Addr := BitVec 16

/-- A command word, 24 bits (R6, R70). -/
abbrev CmdWord := BitVec 24

/-- One bit per role: the shape of LAT and DIR (R9, R20). -/
abbrev RoleBits := BitVec 6

end Sys2Proof
end

