-- ==== Sys2Proof/Config.lean ====
section
/-! DEFINITION. The configuration of the block: the parameters of spec/00_scope.md R5 as one record of plain data.
It is no state of the block (spec/10_state.md R32): no step changes it.  The default values and the constraints of
R5's table stand in Machine/Setup.lean. -/

namespace Sys2Proof

/-- Where one role lives outside the block: a physical pin and its direction-control bit (R5 PINMAP, R51).  The
numbers are names only. -/
structure PhysPin where
  pin : Nat
  dirBit : Nat
  deriving DecidableEq, Repr

/-- PINMAP (R5): the physical pin of each of the six roles. -/
structure PinMap where
  e : PhysPin
  rs : PhysPin
  d4 : PhysPin
  d5 : PhysPin
  d6 : PhysPin
  d7 : PhysPin
  deriving DecidableEq, Repr

/-- The display controller's minimum times, in nanoseconds, that R5's constraint column compares the delay counts
with (spec/70_reset_and_hazards.md R230).  The last one is the minimum enable cycle of R156 and R230. -/
structure ControllerTimes where
  pulse : Nat
  command : Nat
  clear : Nat
  powerOn : Nat
  init1 : Nat
  init2 : Nat
  enableCycle : Nat
  deriving DecidableEq, Repr

/-- One item of INIT_SEQ (R5, spec/41_initialize.md R131). -/
inductive InitItem where
  /-- `Nib(n)`: one strobed command nibble. -/
  | nib (n : Nibble)
  /-- `Cmd(b)`: one command byte. -/
  | cmd (b : Byte)
  /-- `Clr`: the clear command with its long settle. -/
  | clr
  /-- `Wait(k)`: a delay of `k` ticks. -/
  | wait (k : Nat)
  deriving DecidableEq, Repr

/-- The parameters of R5.  ROWS, DEF_ROW, DEF_COL and W_SP have one value each in R5 and are constants
(Machine/Setup.lean, Word.lean). -/
structure Config where
  /-- PINMAP -/
  pinMap : PinMap
  /-- F_TICK, in hertz -/
  fTick : Nat
  /-- W_DLY, the width of the delay counter -/
  wDly : Nat
  /-- N_PW, enable pulse width -/
  nPw : Nat
  /-- N_CMD, inter-command settle -/
  nCmd : Nat
  /-- N_CLR, extra settle of the clear command -/
  nClr : Nat
  /-- N_PWRON, power-on wait of INIT -/
  nPwrOn : Nat
  /-- N_INIT1, wait after the first init nibble -/
  nInit1 : Nat
  /-- N_INIT2, wait after the second init nibble -/
  nInit2 : Nat
  /-- INIT_SEQ -/
  initSeq : List InitItem
  /-- CLEAR_CODE -/
  clearCode : Byte
  /-- SETADDR_BASE -/
  setAddrBase : Byte
  /-- ROW_OFFSET -/
  rowOffset : Nat
  /-- COLS -/
  cols : Nat
  /-- TERM, the byte that ends a string -/
  term : Byte
  /-- EXPOSE_INTERNAL, whether the command port accepts STROBE and NIBBLE -/
  exposeInternal : Bool
  /-- LAT_RESET, the pin latches after reset -/
  latReset : RoleBits
  /-- the controller's minima of R5's constraint column -/
  minima : ControllerTimes
  deriving DecidableEq, Repr

end Sys2Proof
end

