-- ==== Sys2Proof/Machine/Setup.lean ====
section
/-! DEFINITION. The values and constraints of spec/00_scope.md R5: the constants with one value (ROWS, DEF_ROW,
DEF_COL), the default configuration, and the check that a configuration is one of this hardware
(spec/93_implementation_defined.md U11). -/

namespace Sys2Proof

/-- ROWS (R5, SOURCE). -/
def Config.rows : Nat := 2

/-- DEF_ROW (R5, SOURCE). -/
def Config.defRow : Nat := 1

/-- DEF_COL (R5, SOURCE). -/
def Config.defCol : Nat := 0

/-- The default INIT_SEQ of spec/41_initialize.md R132, in the delay counts of a configuration. -/
def Config.defaultInitSeq (c : Config) : List InitItem :=
  [.wait c.nPwrOn, .nib 0x3, .wait c.nInit1, .nib 0x3, .wait c.nInit2, .nib 0x3, .wait c.nCmd, .nib 0x2,
   .wait c.nCmd, .cmd 0x28, .cmd 0x0C, .cmd 0x06, .clr]

/-- R5's defaults with an empty INIT_SEQ.  The pin numbers are the model's (log entry 10); the controller's minima
are the figures R230 quotes (log entry 11). -/
def Config.defaultBase : Config where
  pinMap := { d4 := ⟨0, 0⟩, d5 := ⟨1, 1⟩, d6 := ⟨2, 2⟩, d7 := ⟨3, 3⟩, rs := ⟨4, 4⟩, e := ⟨5, 5⟩ }
  fTick := 1000000
  wDly := 16
  nPw := 1
  nCmd := 40
  nClr := 2000
  nPwrOn := 40000
  nInit1 := 5000
  nInit2 := 200
  initSeq := []
  clearCode := 0x01
  setAddrBase := 0x80
  rowOffset := 0x40
  cols := 16
  term := 0x00
  exposeInternal := false
  latReset := 0b000000
  minima := { pulse := 450, command := 37000, clear := 1520000, powerOn := 40000000, init1 := 4100000,
              init2 := 100000, enableCycle := 1000 }

/-- The default configuration of R5 and R132. -/
def Config.default : Config :=
  { Config.defaultBase with initSeq := Config.defaultInitSeq Config.defaultBase }

/-- An INIT_SEQ item whose delay, if it has one of its own, fits the counter. -/
def InitItem.fits (wDly : Nat) : InitItem → Bool
  | .nib _ => true
  | .cmd _ => true
  | .clr => true
  | .wait k => decide (k < 2 ^ wDly)

/-- Every load of the delay counter fits W_DLY bits (R5 row W_DLY, U11). -/
def Config.loadsFit (c : Config) : Bool :=
  decide (c.nPw < 2 ^ c.wDly) && decide (c.nCmd < 2 ^ c.wDly) && decide (c.nClr < 2 ^ c.wDly) &&
  decide (c.nPwrOn < 2 ^ c.wDly) && decide (c.nInit1 < 2 ^ c.wDly) && decide (c.nInit2 < 2 ^ c.wDly) &&
  c.initSeq.all (InitItem.fits c.wDly)

/-- The geometry and the set-address code (R5 rows COLS, ROW_OFFSET, SETADDR_BASE). -/
def Config.geometryOk (c : Config) : Bool :=
  decide (4 ≤ c.cols) && decide (c.cols ≤ 255) && decide (c.cols ≤ c.rowOffset) &&
  decide ((Config.rows - 1) * c.rowOffset + c.cols - 1 ≤ 0x7F) && (c.setAddrBase &&& 0x7F) == 0

/-- The six physical pins of PINMAP. -/
def PinMap.toList (m : PinMap) : List PhysPin := [m.d4, m.d5, m.d6, m.d7, m.rs, m.e]

/-- PINMAP is injective: no two roles share a pin or its direction-control bit (R5 row PINMAP). -/
def Config.pinsOk (c : Config) : Bool :=
  decide (c.pinMap.toList.map PhysPin.pin).Nodup && decide (c.pinMap.toList.map PhysPin.dirBit).Nodup

/-- `ticks / fTick` seconds are at least `ns` nanoseconds. -/
def ticksCover (fTick ticks ns : Nat) : Bool := decide (ns * fTick ≤ ticks * 1000000000)

/-- The delay counts meet the controller's minima (R5 rows F_TICK and N_PW to N_INIT2), and the clear settle is
longer than the standard one. -/
def Config.timingOk (c : Config) : Bool :=
  decide (0 < c.fTick) && decide (1 ≤ c.nClr) &&
  ticksCover c.fTick c.nPw c.minima.pulse && ticksCover c.fTick c.nCmd c.minima.command &&
  ticksCover c.fTick (c.nCmd + c.nClr) c.minima.clear && ticksCover c.fTick c.nPwrOn c.minima.powerOn &&
  ticksCover c.fTick c.nInit1 c.minima.init1 && ticksCover c.fTick c.nInit2 c.minima.init2

/-- A configuration of this hardware: every constraint of R5's table holds. -/
def Config.ok (c : Config) : Bool :=
  c.loadsFit && c.geometryOk && c.pinsOk && c.timingOk

/-- The enable cycle of two nibbles, 6 ticks plus `N_PW + 2` ticks, meets the controller's (R156, R230): a duty of
the configuration outside R5's table, so no part of `Config.ok`. -/
def Config.enableCycleOk (c : Config) : Bool :=
  ticksCover c.fTick (6 + (c.nPw + 2)) c.minima.enableCycle

end Sys2Proof
end

