-- ==== Sys2Proof/Syntax.lean ====
section
/-! DEFINITION. The eight operations of the block, one constructor per row of spec/opcode_table.json
(spec/30_encoding.md R79).  A constructor carries the row's operands and, beside them, the operand bits the row's
format ignores (R78): those bits select nothing, but acceptance latches them into ARG0 and ARG1 with the rest of the
word (R71, R104), so an instruction that dropped them could not say what the registers hold. -/

namespace Sys2Proof

/-- The operations (R79).  Fields named `x…` are the ignored operand bits of R78. -/
inductive Instr where
  /-- INIT (R130), format N: bits 15:0 ignored. -/
  | init (x : BitVec 16)
  /-- STROBE (R140), format N: bits 15:0 ignored. -/
  | strobe (x : BitVec 16)
  /-- NIBBLE (R142), format H: `n` = bits 11:8 the half-byte, `c` = bit 0 isCommand; bits 15:12 and 7:1 ignored. -/
  | nibble (xHigh : BitVec 4) (n : Nibble) (xLow : BitVec 7) (c : Bool)
  /-- WCMD (R150), format B: `b` = bits 15:8; bits 7:0 ignored. -/
  | wcmd (b : Byte) (x : BitVec 8)
  /-- WCHR (R151), format B: `b` = bits 15:8; bits 7:0 ignored. -/
  | wchr (b : Byte) (x : BitVec 8)
  /-- WSTR (R152), format P: `ptr` = bits 15:0. -/
  | wstr (ptr : Addr)
  /-- CLEAR (R170), format N: bits 15:0 ignored. -/
  | clear (x : BitVec 16)
  /-- SETCUR (R171), format RC: `row` = bits 15:8, `col` = bits 7:0, both unsigned. -/
  | setcur (row col : Byte)
  deriving DecidableEq, Repr

end Sys2Proof
end

