-- ==== Sys2Proof/Machine/Operands.lean ====
section
/-! DEFINITION. Operand forms: the five formats of spec/30_encoding.md R72 to R77 as the operand bytes A0 and A1 they
fill, the halves of a byte, and the cursor arithmetic of spec/44_display_ops.md R172, R174, R175. -/

namespace Sys2Proof

/-- The two operand bytes of a command word, A0 and A1 (R70). -/
structure OperandBytes where
  a0 : Byte
  a1 : Byte
  deriving DecidableEq, Repr

/-- Format N (R73): both bytes are ignored bits. -/
def formatN (x : BitVec 16) : OperandBytes := ⟨x.extractLsb' 8 8, x.extractLsb' 0 8⟩

/-- Format H (R74): A0[3:0] is the half-byte, A1[0] isCommand; the rest is ignored bits. -/
def formatH (xHigh : BitVec 4) (n : Nibble) (xLow : BitVec 7) (c : Bool) : OperandBytes :=
  ⟨xHigh ++ n, xLow ++ BitVec.ofBool c⟩

/-- Format B (R75): A0 is the byte, A1 ignored bits. -/
def formatB (b : Byte) (x : BitVec 8) : OperandBytes := ⟨b, x⟩

/-- Format P (R76): A0 is the high byte of the string address, A1 the low byte. -/
def formatP (ptr : Addr) : OperandBytes := ⟨ptr.extractLsb' 8 8, ptr.extractLsb' 0 8⟩

/-- Format RC (R77): A0 is the row, A1 the column. -/
def formatRC (row col : Byte) : OperandBytes := ⟨row, col⟩

/-- The operand bytes of an instruction, by its format (R72). -/
def Instr.operandBytes : Instr → OperandBytes
  | .init x => formatN x
  | .strobe x => formatN x
  | .nibble xHigh n xLow c => formatH xHigh n xLow c
  | .wcmd b x => formatB b x
  | .wchr b x => formatB b x
  | .wstr ptr => formatP ptr
  | .clear x => formatN x
  | .setcur row col => formatRC row col

/-- The opcode number (R79), as OPC holds it: OP[2:0] (R71). -/
def Instr.opcode : Instr → BitVec 3
  | .init _ => 0
  | .strobe _ => 1
  | .nibble _ _ _ _ => 2
  | .wcmd _ _ => 3
  | .wchr _ _ => 4
  | .wstr _ => 5
  | .clear _ => 6
  | .setcur _ _ => 7

/-- `b[7:4]`, the high nibble of a byte, sent first (R54). -/
def highNibble (b : Byte) : Nibble := b.extractLsb' 4 4

/-- `b[3:0]`, the low nibble of a byte, sent second (R54). -/
def lowNibble (b : Byte) : Nibble := b.extractLsb' 0 4

/-- `POS(row, col)` (R172): the position itself in range, the default position otherwise. -/
def cursorPos (cfg : Config) (row col : Byte) : Nat × Nat :=
  if row.toNat < Config.rows ∧ col.toNat < cfg.cols then (row.toNat, col.toNat)
  else (Config.defRow, Config.defCol)

/-- `ADDR(r, c) = r * ROW_OFFSET + c`, on natural numbers (R175). -/
def ddramAddr (cfg : Config) (r c : Nat) : Nat := r * cfg.rowOffset + c

/-- The command byte of SETCUR: `SETADDR_BASE OR ADDR(POS(row, col))` (R174). -/
def setCursorByte (cfg : Config) (row col : Byte) : Byte :=
  cfg.setAddrBase ||| BitVec.ofNat 8 (ddramAddr cfg (cursorPos cfg row col).1 (cursorPos cfg row col).2)

end Sys2Proof
end

