-- ==== Sys2Proof/WellFormed.lean ====
section
/-! DEFINITION. Which instructions are well formed.  Every field has a fixed width and every operand value is legal
(spec/30_encoding.md R74 to R77), so what can be wrong with an instruction is one thing only: it is one of the two
internal building blocks and the strap EXPOSE_INTERNAL does not admit those at the command port (R81).  `canonical`
is the narrower form an assembler writes: ignored operand bits 0 (R78). -/

namespace Sys2Proof

/-- The two internal operations, not part of the public surface (R79 column "public", R81). -/
def Instr.isInternal : Instr → Bool
  | .init _ => false
  | .strobe _ => true
  | .nibble _ _ _ _ => true
  | .wcmd _ _ => false
  | .wchr _ _ => false
  | .wstr _ => false
  | .clear _ => false
  | .setcur _ _ => false

/-- Well formed at a command port with the given EXPOSE_INTERNAL strap (R81, R83). -/
def Instr.wellFormed (exposeInternal : Bool) (i : Instr) : Bool :=
  !i.isInternal || exposeInternal

/-- The same operation with every ignored operand bit 0: what an assembler writes (R78). -/
def Instr.assembled : Instr → Instr
  | .init _ => .init 0
  | .strobe _ => .strobe 0
  | .nibble _ n _ c => .nibble 0 n 0 c
  | .wcmd b _ => .wcmd b 0
  | .wchr b _ => .wchr b 0
  | .wstr ptr => .wstr ptr
  | .clear _ => .clear 0
  | .setcur row col => .setcur row col

/-- The form an assembler writes: every ignored operand bit is 0 (R78). -/
def Instr.canonical : Instr → Bool
  | .init x => x == 0
  | .strobe x => x == 0
  | .nibble xHigh _ xLow _ => xHigh == 0 && xLow == 0
  | .wcmd _ x => x == 0
  | .wchr _ x => x == 0
  | .wstr _ => true
  | .clear x => x == 0
  | .setcur _ _ => true

end Sys2Proof
end

