-- ==== Sys2Proof/Decode.lean ====
section
/-! DEFINITION. The decoder of spec/30_encoding.md R83, total on 24-bit words and naming why it ignores one, and the
encoder written from the same table (R70, R79). -/

namespace Sys2Proof

/-- Field OP, bits 23:16 (R70). -/
def opField (w : CmdWord) : Byte := w.extractLsb' 16 8

/-- Field A0, bits 15:8 (R70). -/
def a0Field (w : CmdWord) : Byte := w.extractLsb' 8 8

/-- Field A1, bits 7:0 (R70). -/
def a1Field (w : CmdWord) : Byte := w.extractLsb' 0 8

/-- Why the decoder ignores a word. -/
inductive IgnoredWord where
  /-- OP is 0x08 to 0xFF (R80). -/
  | reservedOpcode
  /-- OP is 0x01 or 0x02 and EXPOSE_INTERNAL is false (R81). -/
  | internalNotExposed
  deriving DecidableEq, Repr

/-- What a command word decodes to (R83). -/
inductive Decoded where
  | op (i : Instr)
  | ignored (why : IgnoredWord)
  deriving DecidableEq, Repr

/-- The decoder (R83).  `exposeInternal` is the strap EXPOSE_INTERNAL; no operand bit takes part in selecting the
operation (R71). -/
def decode (exposeInternal : Bool) (w : CmdWord) : Decoded :=
  match (opField w).toNat with
  | 0 => .op (.init (w.extractLsb' 0 16))
  | 1 => if exposeInternal then .op (.strobe (w.extractLsb' 0 16)) else .ignored .internalNotExposed
  | 2 =>
    if exposeInternal then
      .op (.nibble (w.extractLsb' 12 4) (w.extractLsb' 8 4) (w.extractLsb' 1 7) (w.getLsbD 0))
    else .ignored .internalNotExposed
  | 3 => .op (.wcmd (w.extractLsb' 8 8) (w.extractLsb' 0 8))
  | 4 => .op (.wchr (w.extractLsb' 8 8) (w.extractLsb' 0 8))
  | 5 => .op (.wstr (w.extractLsb' 0 16))
  | 6 => .op (.clear (w.extractLsb' 0 16))
  | 7 => .op (.setcur (w.extractLsb' 8 8) (w.extractLsb' 0 8))
  | _ => .ignored .reservedOpcode

/-- The command word of an instruction: OP = the opcode number, A0 and A1 its operand bytes (R70, R79). -/
def encode (i : Instr) : CmdWord :=
  (0#5 ++ i.opcode) ++ i.operandBytes.a0 ++ i.operandBytes.a1

/-- One row of the opcode map: `match` and `mask` of R79's table. -/
structure OpcodeRow where
  opcode : BitVec 3
  pattern : CmdWord
  mask : CmdWord
  deriving DecidableEq, Repr

/-- The opcode map of R79, in its order. -/
def opcodeMap : List OpcodeRow :=
  [⟨0, 0x000000, 0xFF0000⟩, ⟨1, 0x010000, 0xFF0000⟩, ⟨2, 0x020000, 0xFF0000⟩, ⟨3, 0x030000, 0xFF0000⟩,
   ⟨4, 0x040000, 0xFF0000⟩, ⟨5, 0x050000, 0xFF0000⟩, ⟨6, 0x060000, 0xFF0000⟩, ⟨7, 0x070000, 0xFF0000⟩]

/-- The instruction the decoder reads from a row's bits, numbered as spec/opcode_table.json numbers them: the table's
word is the 24-bit command word itself.  EXPOSE_INTERNAL is taken as true, so that the internal rows decode. -/
def decodeTableWord (nbits w : Nat) : Option Instr :=
  if nbits ≤ 24 ∧ w < 2 ^ nbits then
    match decode true (BitVec.ofNat 24 w) with
    | .op i => some i
    | .ignored _ => none
  else none

end Sys2Proof
end

