-- ==== Sys2Proof/Machine/Memory.lean ====
section
/-! DEFINITION. The string space of spec/20_memory.md R52: 65536 bytes owned by the host, read by WSTR's fetch.  It is
a list of (address, byte) cells in one canonical form: addresses strictly rising and below 65536, no cell that holds
what an unlisted address reads as. -/

namespace Sys2Proof.Machine

/-- The listed cells of the string space. -/
abbrev Memory := List Host.Cell

namespace Memory

/-- What an address that nothing has written reads as.  DESIGN CHOICE (log entry 7): the spec gives the string space
no initial contents and says that a read never faults (R52). -/
def unlisted : Byte := 0x00

/-- The byte at a numeric address. -/
def lookup : Memory → Nat → Byte
  | [], _ => unlisted
  | (k, v) :: rest, a => if k = a then v else lookup rest a

/-- Put a cell in front, or nothing where it would hold the unlisted byte. -/
def put (a : Nat) (b : Byte) (rest : Memory) : Memory :=
  if b = unlisted then rest else (a, b) :: rest

/-- Write one byte at a numeric address, keeping the canonical form. -/
def insert : Memory → Nat → Byte → Memory
  | [], a, b => put a b []
  | (k, v) :: rest, a, b =>
    if a < k then put a b ((k, v) :: rest)
    else if a = k then put a b rest
    else (k, v) :: insert rest a b

/-- `MemRead(a, 1)` (R52). -/
def read (m : Memory) (a : Addr) : Byte := lookup m a.toNat

/-- One byte stored by the host, the owner of the string space (R15, R52). -/
def write (m : Memory) (a : Addr) (b : Byte) : Memory := insert m a.toNat b

/-- Several host stores, first to last. -/
def writeAll (m : Memory) (stores : List (Addr × Byte)) : Memory :=
  stores.foldl (fun m st => write m st.1 st.2) m

/-- Bytes at consecutive addresses from `a` on, wrapping past 0xFFFF. -/
def writeBytes (m : Memory) (a : Addr) : List Byte → Memory
  | [] => m
  | b :: rest => writeBytes (write m a b) (a + 1) rest

/-- The canonical form from address `lo` on. -/
def wfFrom : Nat → Memory → Bool
  | _, [] => true
  | lo, (k, v) :: rest => decide (lo ≤ k) && decide (k < 65536) && v != unlisted && wfFrom (k + 1) rest

/-- The canonical form. -/
def wf (m : Memory) : Bool := wfFrom 0 m

end Memory

end Sys2Proof.Machine
end

