-- ==== Sys2Proof/Machine/MicroOp.lean ====
section
/-! DEFINITION. The six roles (spec/00_scope.md R9), the three micro-operations (spec/40_sequencer_primitives.md
R100), and reading and writing one role's bit of LAT or DIR. -/

namespace Sys2Proof.Machine

/-- The six logical signals (R9). -/
inductive Role where
  | e | rs | d4 | d5 | d6 | d7
  deriving DecidableEq, Repr

/-- The role-to-bit map of LAT and DIR (R9). -/
def Role.bit : Role → Nat
  | .d4 => 0
  | .d5 => 1
  | .d6 => 2
  | .d7 => 3
  | .rs => 4
  | .e => 5

/-- The order in which INIT takes the roles: E, RS, D4, D5, D6, D7 (R131). -/
def Role.initOrder : List Role := [.e, .rs, .d4, .d5, .d6, .d7]

/-- The micro-operations (R100). -/
inductive MicroOp where
  /-- `DIR_OUT(p)`: make role p an output (R101). -/
  | dirOut (p : Role)
  /-- `PIN(p, v)`: the latch of role p takes level v (R102). -/
  | pin (p : Role) (v : Bool)
  /-- `DLY(n)`: load the delay counter with n (R103). -/
  | dly (n : Nat)
  deriving DecidableEq, Repr

/-- `v[p]`: the bit of role p (R9). -/
def getRole (v : RoleBits) (p : Role) : Bool := v.getLsbD p.bit

/-- `v` with the bit of role p set to b, the other five as they were. -/
def setRole (v : RoleBits) (p : Role) (b : Bool) : RoleBits :=
  if b then v ||| (1#6 <<< p.bit) else v &&& ~~~(1#6 <<< p.bit)

/-- The delay a micro-op asks for: n for `DLY(n)`, 0 otherwise (R112). -/
def MicroOp.delay : MicroOp → Nat
  | .dirOut _ => 0
  | .pin _ _ => 0
  | .dly n => n

/-- The sum of the DLY loads of a list (R111, R234). -/
def delaySum (xs : List MicroOp) : Nat := (xs.map MicroOp.delay).sum

end Sys2Proof.Machine
end

