-- ==== Sys2Proof/Machine/State.lean ====
section
/-! DEFINITION. The state: the registers of spec/10_state.md R20, and beside them what the step relation takes as
arguments (spec/40_sequencer_primitives.md R109, R32): the configuration, the string space and the inputs of the ticks
to come. -/

namespace Sys2Proof.Machine

/-- What the outside gives the block in one tick (R14, R31): the RESET and CMD_VALID pins, the CMD_WORD port, and the
bytes the host stores into the string space it owns (R15, R62), which the tick's fetch already sees. -/
structure TickInput where
  reset : Bool
  cmdValid : Bool
  cmdWord : CmdWord
  stores : List (Addr × Byte)
  deriving DecidableEq, Repr

/-- A tick in which nothing comes from outside. -/
def TickInput.none : TickInput := ⟨false, false, 0, []⟩

/-- The machine.  `lat` to `tr` are the registers of R20 under their names there. -/
structure State where
  /-- LAT: output latch of each role (R21) -/
  lat : RoleBits
  /-- DIR: direction bit of each role, 0 output, 1 input (R22) -/
  dir : RoleBits
  /-- DLY: the delay down-counter, W_DLY bits (R24) -/
  dly : Nat
  /-- BUSY (R25) -/
  busy : Bool
  /-- INITD (R25) -/
  initd : Bool
  /-- STR (R25) -/
  str : Bool
  /-- OPC (R26) -/
  opc : BitVec 3
  /-- ARG0 (R26) -/
  arg0 : Byte
  /-- ARG1 (R26) -/
  arg1 : Byte
  /-- SP: the string pointer (R27) -/
  sp : Addr
  /-- PEND: the micro-ops still to run, head first (R28) -/
  pend : List MicroOp
  /-- TR: every micro-op executed since reset, oldest first (R29) -/
  tr : List MicroOp
  /-- the configuration (R5, R32): never changed by a step -/
  cfg : Config
  /-- M: the string space, the host's (R52) -/
  mem : Memory
  /-- the inputs of the ticks to come, next first; after the last, quiet ticks -/
  inputs : List TickInput
  deriving DecidableEq, Repr

/-- The block raises no exception and no operation can fail (spec/60_exceptions.md R190): no fault exists. -/
inductive Fault where
  deriving DecidableEq, Repr

/-- Where the model gives no next state. -/
inductive Refusal where
  /-- An arm of `exec` without a meaning.  Raised by no arm of this model.  Safe. -/
  | notModelled (mnemonic : String)
  /-- CMD_VALID = 1 in a tick with BUSY = 1 and RESET = 0: no defined meaning, "the model refuses the input"
  (R109, U1).  Raised by `tick` and by every meaning's acceptance.  Safe. -/
  | commandWhileBusy
  /-- The configuration breaks a constraint of R5: "refuse: not a configuration of this hardware" (U11).
  Raised by `step`.  Safe. -/
  | badConfiguration
  deriving DecidableEq, Repr

/-- Every register at the value of R36, for a configuration, string space and inputs that reset does not touch
(R220, R224). -/
def State.resetWith (cfg : Config) (mem : Memory) (inputs : List TickInput) : State where
  lat := cfg.latReset
  dir := 0b111111
  dly := 0
  busy := false
  initd := false
  str := false
  opc := 0
  arg0 := 0
  arg1 := 0
  sp := 0
  pend := []
  tr := []
  cfg := cfg
  mem := mem
  inputs := inputs

/-- The machine right after reset (R36), with R5's default configuration, nothing stored in the string space and no
input waiting. -/
def State.reset : State := State.resetWith Config.default [] []

end Sys2Proof.Machine
end

