-- ==== Sys2Proof/Machine/Flags.lean ====
section
/-! DEFINITION. The flags of spec/10_state.md R25 and the STATUS port of R30.  There are no condition codes. -/

namespace Sys2Proof.Machine

/-- STATUS (R30): bit 0 BUSY, bit 1 INITD, bits 7:2 zero. -/
def State.status (s : State) : Byte :=
  0#6 ++ BitVec.ofBool s.initd ++ BitVec.ofBool s.busy

/-- The flags acceptance leaves: BUSY 1; STR as the operation says; INITD unchanged (R25, R104). -/
def acceptFlags (str : Bool) (s : State) : State := { s with busy := true, str := str }

/-- The flags completion leaves: BUSY 0, and INITD 1 if the operation was INIT (R108). -/
def completeFlags (s : State) : State :=
  { s with busy := false, initd := s.initd || s.opc == 0 }

end Sys2Proof.Machine
end

