-- ==== Sys2Proof/Machine/Ops.lean ====
section
/-! DEFINITION. The named operations every meaning and every tick is made of: the effect of a micro-operation
(spec/40_sequencer_primitives.md R101 to R103), acceptance (R104), the delay, execute, fetch and completion steps
(R105 to R108), reset (spec/70_reset_and_hazards.md R220) and taking a tick's input.  The block raises no exception
(spec/60_exceptions.md R190, R194, R195), so there is no trap entry and no return; what overrides a step is reset. -/

namespace Sys2Proof.Machine

/-- The input of this tick: the next waiting one, or a quiet tick. -/
def State.input (s : State) : TickInput := s.inputs.headD TickInput.none

/-- This tick's input taken: it waits no more, and the host's stores of this tick are in the string space (R62). -/
def State.takeInput (s : State) : State :=
  { s with inputs := s.inputs.tail, mem := s.mem.writeAll s.input.stores }

/-- LAT after one micro-op (R102, R113). -/
def latStep (l : RoleBits) : MicroOp → RoleBits
  | .dirOut _ => l
  | .pin p v => setRole l p v
  | .dly _ => l

/-- DIR after one micro-op (R101). -/
def dirStep (d : RoleBits) : MicroOp → RoleBits
  | .dirOut p => setRole d p false
  | .pin _ _ => d
  | .dly _ => d

/-- The effect of a micro-op on LAT, DIR and DLY (R101, R102, R103). -/
def applyMicro (m : MicroOp) (s : State) : State :=
  match m with
  | .dirOut p => { s with dir := setRole s.dir p false }
  | .pin p v => { s with lat := setRole s.lat p v }
  | .dly n => { s with dly := n }

/-- OPC, ARG0 and ARG1 latch the command word's fields (R71, R104). -/
def latchWord (i : Instr) (s : State) : State :=
  { s with opc := i.opcode, arg0 := i.operandBytes.a0, arg1 := i.operandBytes.a1 }

/-- Acceptance of an operation with a fixed expansion (R104): the word is latched, BUSY is 1, STR 0 and PEND the
expansion.  In a busy block it has no defined meaning (R109). -/
def accept (i : Instr) (x : List MicroOp) (s : State) : Host.Outcome State Fault Refusal :=
  if s.busy then .refused .commandWhileBusy
  else .next { acceptFlags false (latchWord i s) with pend := x }

/-- Acceptance of WSTR (R104): as `accept`, with SP at the string, STR 1 and nothing pending. -/
def acceptString (i : Instr) (ptr : Addr) (s : State) : Host.Outcome State Fault Refusal :=
  if s.busy then .refused .commandWhileBusy
  else .next { acceptFlags true (latchWord i s) with sp := ptr, pend := [] }

/-- The delay step (R105). -/
def delayStep (s : State) : State := { s with dly := s.dly - 1 }

/-- The execute step (R106) for `PEND = m :: rest`. -/
def executeStep (m : MicroOp) (rest : List MicroOp) (s : State) : State :=
  { applyMicro m s with pend := rest, tr := s.tr ++ [m] }

/-- The fetch step (R107), given X_WCHR: SP moves on whether or not the byte ends the string. -/
def fetchStep (xWchr : Byte → List MicroOp) (s : State) : State :=
  let b := s.mem.read s.sp
  if b = s.cfg.term then { s with sp := s.sp + 1, str := false }
  else { s with sp := s.sp + 1, pend := xWchr b }

/-- The completion step (R108). -/
def completionStep (s : State) : State := completeFlags s

/-- The reset step (R220): every register at its reset value, whatever it held; the configuration, the string space
and the inputs to come are not the block's to reset (R224). -/
def resetStep (s : State) : State := State.resetWith s.cfg s.mem s.inputs

end Sys2Proof.Machine
end

