-- ==== Sys2Proof/Machine/Expand.lean ====
section
/-! DEFINITION. The expansions: the list of micro-ops each operation stands for (spec/41_initialize.md R131,
spec/42_strobe_nibble.md R141, R143, spec/43_byte_transfer.md R154, R155, spec/44_display_ops.md R173, R174). -/

namespace Sys2Proof.Machine

/-- `X_STROBE` (R141). -/
def xStrobe (cfg : Config) : List MicroOp := [.pin .e true, .dly cfg.nPw, .pin .e false]

/-- `X_NIBBLE(n, c)` (R143): line D(4+i) carries bit i (R144), RS carries NOT c (R145). -/
def xNibble (cfg : Config) (n : Nibble) (c : Bool) : List MicroOp :=
  [.pin .d4 (n.getLsbD 0), .pin .d5 (n.getLsbD 1), .pin .d6 (n.getLsbD 2), .pin .d7 (n.getLsbD 3),
   .pin .rs (!c)] ++ xStrobe cfg

/-- `X_BYTE(b, c)` (R155): high nibble, low nibble, settle. -/
def xByte (cfg : Config) (b : Byte) (c : Bool) : List MicroOp :=
  xNibble cfg (highNibble b) c ++ xNibble cfg (lowNibble b) c ++ [.dly cfg.nCmd]

/-- `X_WCMD(b)` (R155). -/
def xWcmd (cfg : Config) (b : Byte) : List MicroOp := xByte cfg b true

/-- `X_WCHR(b)` (R155). -/
def xWchr (cfg : Config) (b : Byte) : List MicroOp := xByte cfg b false

/-- `X_CLEAR` (R173). -/
def xClear (cfg : Config) : List MicroOp := xWcmd cfg cfg.clearCode ++ [.dly cfg.nClr]

/-- `X_SETCUR(row, col)` (R174). -/
def xSetcur (cfg : Config) (row col : Byte) : List MicroOp := xWcmd cfg (setCursorByte cfg row col)

/-- `X_ITEM` (R131). -/
def xItem (cfg : Config) : InitItem → List MicroOp
  | .nib n => xNibble cfg n true
  | .cmd b => xWcmd cfg b
  | .clr => xClear cfg
  | .wait k => [.dly k]

/-- `X_INIT` (R131): directions, idle levels, then the initialization series. -/
def xInit (cfg : Config) : List MicroOp :=
  Role.initOrder.map .dirOut ++ Role.initOrder.map (fun p => .pin p false) ++ cfg.initSeq.flatMap (xItem cfg)

/-- The bytes of the string at `ptr`, up to the first TERM (R153), looking at no more than `fuel` addresses: none if
no TERM is among them. -/
def stringAt (term : Byte) (m : Memory) : Nat → Addr → Option (List Byte)
  | 0, _ => none
  | fuel + 1, ptr =>
    if m.read ptr = term then some []
    else (stringAt term m fuel (ptr + 1)).map (fun bs => m.read ptr :: bs)

/-- The string at `ptr`: every address of the space is looked at once, so none means that no TERM exists (R154). -/
def stringOf (term : Byte) (m : Memory) (ptr : Addr) : Option (List Byte) := stringAt term m 65536 ptr

/-- `X_WSTR` of a string's bytes (R154). -/
def xWstr (cfg : Config) (bytes : List Byte) : List MicroOp := bytes.flatMap (xWchr cfg)

/-- `X(d)` (R104) for every operation but WSTR, which has no list of its own at acceptance. -/
def expansion (cfg : Config) : Instr → Option (List MicroOp)
  | .init _ => some (xInit cfg)
  | .strobe _ => some (xStrobe cfg)
  | .nibble _ n _ c => some (xNibble cfg n c)
  | .wcmd b _ => some (xWcmd cfg b)
  | .wchr b _ => some (xWchr cfg b)
  | .wstr _ => none
  | .clear _ => some (xClear cfg)
  | .setcur row col => some (xSetcur cfg row col)

end Sys2Proof.Machine
end

