-- ==== Sys2Proof/Machine/ByteTransfer.lean ====
section
/-! DEFINITION. The meanings of WCMD, WCHR and WSTR (spec/43_byte_transfer.md R150, R151, R152). -/

namespace Sys2Proof.Machine

/-- WCMD (R150): `PEND <- X_WCMD(b)`; every byte is forwarded uninterpreted. -/
def execWcmd (b : Byte) (x : BitVec 8) (s : State) : Host.Outcome State Fault Refusal :=
  accept (.wcmd b x) (xWcmd s.cfg b) s

/-- WCHR (R151): `PEND <- X_WCHR(b)`; TERM is a byte like any other here. -/
def execWchr (b : Byte) (x : BitVec 8) (s : State) : Host.Outcome State Fault Refusal :=
  accept (.wchr b x) (xWchr s.cfg b) s

/-- WSTR (R152): `SP <- ptr; STR <- 1`; the fetch steps do the rest (R107). -/
def execWstr (ptr : Addr) (s : State) : Host.Outcome State Fault Refusal :=
  acceptString (.wstr ptr) ptr s

end Sys2Proof.Machine
end

