-- ==== Sys2Proof/Machine/DisplayOps.lean ====
section
/-! DEFINITION. The meanings of CLEAR and SETCUR (spec/44_display_ops.md R170, R171). -/

namespace Sys2Proof.Machine

/-- CLEAR (R170): `PEND <- X_CLEAR`. -/
def execClear (x : BitVec 16) (s : State) : Host.Outcome State Fault Refusal :=
  accept (.clear x) (xClear s.cfg) s

/-- SETCUR (R171): `PEND <- X_SETCUR(row, col)`, the range test made once, at acceptance (R118, R172). -/
def execSetcur (row col : Byte) (s : State) : Host.Outcome State Fault Refusal :=
  accept (.setcur row col) (xSetcur s.cfg row col) s

end Sys2Proof.Machine
end

