-- ==== Sys2Proof/Machine/Initialize.lean ====
section
/-! DEFINITION. The meaning of INIT (spec/41_initialize.md R130). -/

namespace Sys2Proof.Machine

/-- INIT (R130): `PEND <- X_INIT`.  Nothing checks INITD (R134). -/
def execInit (x : BitVec 16) (s : State) : Host.Outcome State Fault Refusal :=
  accept (.init x) (xInit s.cfg) s

end Sys2Proof.Machine
end

