-- ==== Sys2Proof/Machine/StrobeNibble.lean ====
section
/-! DEFINITION. The meanings of STROBE and NIBBLE (spec/42_strobe_nibble.md R140, R142).  Whether the command port
admits them is the decoder's matter (R81). -/

namespace Sys2Proof.Machine

/-- STROBE (R140): `PEND <- X_STROBE`. -/
def execStrobe (x : BitVec 16) (s : State) : Host.Outcome State Fault Refusal :=
  accept (.strobe x) (xStrobe s.cfg) s

/-- NIBBLE (R142): `PEND <- X_NIBBLE(n, c)`. -/
def execNibble (xHigh : BitVec 4) (n : Nibble) (xLow : BitVec 7) (c : Bool) (s : State) :
    Host.Outcome State Fault Refusal :=
  accept (.nibble xHigh n xLow c) (xNibble s.cfg n c) s

end Sys2Proof.Machine
end

