-- ==== Sys2Proof/Machine/Dispatch.lean ====
section
/-! DEFINITION. One arm per constructor of Instr: its acceptance (spec/40_sequencer_primitives.md R104). -/

namespace Sys2Proof.Machine

/-- The meaning of an instruction in the tick that accepts it (R104). -/
def exec (i : Instr) (s : State) : Host.Outcome State Fault Refusal :=
  match i with
  | .init x => Sys2Proof.Machine.execInit x s
  | .strobe x => Sys2Proof.Machine.execStrobe x s
  | .nibble xHigh n xLow c => Sys2Proof.Machine.execNibble xHigh n xLow c s
  | .wcmd b x => Sys2Proof.Machine.execWcmd b x s
  | .wchr b x => Sys2Proof.Machine.execWchr b x s
  | .wstr ptr => Sys2Proof.Machine.execWstr ptr s
  | .clear x => Sys2Proof.Machine.execClear x s
  | .setcur row col => Sys2Proof.Machine.execSetcur row col s

end Sys2Proof.Machine
end

