-- ==== Sys2Proof/Machine/Tick.lean ====
section
/-! DEFINITION. One tick of the block: the choice among the steps of spec/40_sequencer_primitives.md R104 to R109 and
the reset of spec/70_reset_and_hazards.md R220, and how a command word is placed for the next tick. -/

namespace Sys2Proof.Machine

/-- The step of a busy block (R105 to R108), by DLY, PEND and STR. -/
def busyStep (s : State) : State :=
  if s.dly ≠ 0 then delayStep s
  else
    match s.pend with
    | m :: rest => executeStep m rest s
    | [] => if s.str then fetchStep (xWchr s.cfg) s else completionStep s

/-- The step of an idle block (R104): a word the decoder ignores changes nothing. -/
def idleStep (i : TickInput) (s : State) : Host.Outcome State Fault Refusal :=
  if i.cmdValid then
    match decode s.cfg.exposeInternal i.cmdWord with
    | .op instr => exec instr s
    | .ignored _ => .next s
  else .next s

/-- One tick with input `i` (R109, R193): reset wins over everything; a command while busy has no defined meaning. -/
def tick (i : TickInput) (s : State) : Host.Outcome State Fault Refusal :=
  if i.reset then .next (resetStep s)
  else if s.busy then
    if i.cmdValid then .refused .commandWhileBusy else .next (busyStep s)
  else idleStep i s

/-- One tick on the input that waits; a configuration that breaks R5 is none of this hardware (U11). -/
def tickOnInput (s : State) : Host.Outcome State Fault Refusal :=
  if s.cfg.ok then tick s.input s.takeInput else .refused .badConfiguration

/-- The input that presents a command word in one tick. -/
def TickInput.command (w : CmdWord) : TickInput := ⟨false, true, w, []⟩

/-- `s` idle, with the word presented in the very next tick (log entry 14).  An internal opcode is only accepted with
the strap EXPOSE_INTERNAL set (R81), so such a word sets it. -/
def presentWord (s : State) (w : CmdWord) : State :=
  { s with
    busy := false, dly := 0, pend := [], str := false,
    cfg := { s.cfg with exposeInternal := s.cfg.exposeInternal || opField w == 1 || opField w == 2 },
    inputs := TickInput.command w :: s.inputs }

end Sys2Proof.Machine
end

