-- ==== Sys2Proof/Machine/Step.lean ====
section
/-! DEFINITION. The machine's step, one tick, and where the host places a command word. -/

namespace Sys2Proof.Machine

/-- One step is one tick of the block (R104 to R109, R220). -/
def step (s : State) : Host.Outcome State Fault Refusal := tickOnInput s

/-- The instruction whose bits are `w` placed where the next step takes it: on the command port of an idle block.
The block has no program memory (spec/10_state.md R27), so nothing else holds an instruction. -/
def State.withFetchWord (s : State) (_nbits w : Nat) : State := presentWord s (BitVec.ofNat 24 w)

end Sys2Proof.Machine
end

