-- ==== Sys2Proof/Machine/Observe.lean ====
section
/-! DEFINITION. What can be seen of the block: its output ports (spec/10_state.md R23, R31), and the readings of the
event log (spec/40_sequencer_primitives.md R113, R114, R116).  No step reads any of it. -/

namespace Sys2Proof.Machine

/-- The level on a wire: driven by the block, or Z (R23). -/
inductive Wire where
  | driven (level : Bool)
  | z
  deriving DecidableEq, Repr

/-- `PINOUT(p)` (R23). -/
def State.pinOut (s : State) (p : Role) : Wire :=
  if getRole s.dir p then .z else .driven (getRole s.lat p)

/-- MEM_ADDR (R31, R107): the old SP in a tick that fetches.  No rule says what the port carries in another, a tick with
RESET = 1 that finds a fetching state among them (R193: it does not fetch); the model gives no value there.
DESIGN CHOICE (log entry 18). -/
def State.memAddr (s : State) : Option Addr :=
  if !s.input.reset && s.busy && decide (s.dly = 0) && decide (s.pend = []) && s.str then some s.sp else none

/-- The output ports of R31. -/
structure OutPorts where
  status : Byte
  memAddr : Option Addr
  pinE : Wire
  pinRs : Wire
  pinD4 : Wire
  pinD5 : Wire
  pinD6 : Wire
  pinD7 : Wire
  deriving DecidableEq, Repr

/-- The output ports in a state. -/
def State.ports (s : State) : OutPorts where
  status := s.status
  memAddr := s.memAddr
  pinE := s.pinOut .e
  pinRs := s.pinOut .rs
  pinD4 := s.pinOut .d4
  pinD5 := s.pinOut .d5
  pinD6 := s.pinOut .d6
  pinD7 := s.pinOut .d7

/-- The physical pin of a role (R5 PINMAP). -/
def pinOf (m : PinMap) : Role → PhysPin
  | .e => m.e
  | .rs => m.rs
  | .d4 => m.d4
  | .d5 => m.d5
  | .d6 => m.d6
  | .d7 => m.d7

/-- What the block puts on a physical pin: the wire of the role PINMAP routes there (R31), none for a pin that no
role uses. -/
def State.physicalPin (s : State) (pin : Nat) : Option Wire :=
  (Role.initOrder.find? (fun p => (pinOf s.cfg.pinMap p).pin == pin)).map s.pinOut

/-- `lat(T, L0)` (R113). -/
def latAfter (t : List MicroOp) (l0 : RoleBits) : RoleBits := t.foldl latStep l0

/-- The direction bits after a list of micro-ops (R101, R111). -/
def dirAfter (t : List MicroOp) (d0 : RoleBits) : RoleBits := t.foldl dirStep d0

/-- The part of the pin history (R113) after the empty prefix: the latch value after each micro-op, with the delay
that the micro-op asks for. -/
def historyFrom : List MicroOp → RoleBits → List (RoleBits × Nat)
  | [], _ => []
  | m :: rest, l => (latStep l m, m.delay) :: historyFrom rest (latStep l m)

/-- The pin history (R113): the latch value after each prefix of the list, the empty one (L0, no delay) first, with the
DLY operands as the spacing (R112). -/
def history (t : List MicroOp) (l0 : RoleBits) : List (RoleBits × Nat) := (l0, 0) :: historyFrom t l0

/-- One pulse of E: its sample (rs, nib) and its width (R114). -/
structure Pulse where
  rs : Bool
  nib : Nibble
  width : Nat
  deriving DecidableEq, Repr

/-- `{L[D7], L[D6], L[D5], L[D4]}` (R13, R114). -/
def dataNibble (l : RoleBits) : Nibble := l.extractLsb' 0 4

/-- The walk of R114 with latch value `l`; `w` is the width so far of the open pulse, if one is open. -/
def pulsesFrom : List MicroOp → RoleBits → Option Nat → List Pulse
  | [], _, _ => []
  | .dirOut _ :: rest, l, w => pulsesFrom rest l w
  | .dly n :: rest, l, w => pulsesFrom rest l (w.map (· + n))
  | .pin .e true :: rest, l, w =>
    pulsesFrom rest (setRole l .e true) (if getRole l .e then w else some 0)
  | .pin .e false :: rest, l, some w =>
    ⟨getRole l .rs, dataNibble l, w⟩ :: pulsesFrom rest (setRole l .e false) none
  | .pin .e false :: rest, l, none => pulsesFrom rest (setRole l .e false) none
  | .pin p v :: rest, l, w => pulsesFrom rest (setRole l p v) w

/-- `pulses(T, L0)` (R114). -/
def pulses (t : List MicroOp) (l0 : RoleBits) : List Pulse := pulsesFrom t l0 none

/-- The walk of R116: as R114's, with the direction bits beside the latches; a pulse counts if all six roles were
outputs when it opened (no micro-op makes a role an input again, so they then stay outputs). -/
def receivedFrom : List MicroOp → RoleBits → RoleBits → Option (Nat × Bool) → List Pulse
  | [], _, _, _ => []
  | .dirOut p :: rest, l, d, w => receivedFrom rest l (setRole d p false) w
  | .dly n :: rest, l, d, w => receivedFrom rest l d (w.map (fun (k, out) => (k + n, out)))
  | .pin .e true :: rest, l, d, w =>
    receivedFrom rest (setRole l .e true) d (if getRole l .e then w else some (0, d == 0))
  | .pin .e false :: rest, l, d, some (k, out) =>
    if out then ⟨getRole l .rs, dataNibble l, k⟩ :: receivedFrom rest (setRole l .e false) d none
    else receivedFrom rest (setRole l .e false) d none
  | .pin .e false :: rest, l, d, none => receivedFrom rest (setRole l .e false) d none
  | .pin p v :: rest, l, d, w => receivedFrom rest (setRole l p v) d w

/-- The samples the controller receives, in order (R116): the pulses of the event log made with all six roles
outputs. -/
def State.received (s : State) : List (Bool × Nibble) :=
  (receivedFrom s.tr s.cfg.latReset 0b111111 none).map (fun p => (p.rs, p.nib))

/-- `byte_of(p1, p2)` (R116). -/
def byteOf (p1 p2 : Pulse) : Byte := p1.nib ++ p2.nib

end Sys2Proof.Machine
end

