-- ==== Sys2Proof/Machine/Script.lean ====
section
/-! DEFINITION. Command scripts (spec/30_encoding.md R84): what a list of words executes, how many ticks each takes
(spec/40_sequencer_primitives.md R111, spec/70_reset_and_hazards.md R234), and the inputs by which a host runs it. -/

namespace Sys2Proof.Machine

/-- The list an operation executes as a whole (R111): its expansion, or X_WSTR of its string (R154); none for a WSTR
whose string never ends. -/
def fullList (cfg : Config) (m : Memory) (i : Instr) : Option (List MicroOp) :=
  match i with
  | .wstr ptr => (stringOf cfg.term m ptr).map (xWstr cfg)
  | .init _ => expansion cfg i
  | .strobe _ => expansion cfg i
  | .nibble _ _ _ _ => expansion cfg i
  | .wcmd _ _ => expansion cfg i
  | .wchr _ _ => expansion cfg i
  | .clear _ => expansion cfg i
  | .setcur _ _ => expansion cfg i

/-- The fetch ticks of an operation: one for each byte of the string and one for the terminator (R154). -/
def fetchTicks (cfg : Config) (m : Memory) (i : Instr) : Nat :=
  match i with
  | .wstr ptr => ((stringOf cfg.term m ptr).map (fun bs => bs.length + 1)).getD 0
  | .init _ => 0
  | .strobe _ => 0
  | .nibble _ _ _ _ => 0
  | .wcmd _ _ => 0
  | .wchr _ _ => 0
  | .clear _ => 0
  | .setcur _ _ => 0

/-- Ticks from the acceptance tick to the completion tick, both included, for a list with so many fetches (R111,
R234). -/
def ticksOf (x : List MicroOp) (fetches : Nat) : Nat := 2 + x.length + delaySum x + fetches

/-- What a presented word executes (R84, R111): nothing for an ignored word. -/
def wordList (cfg : Config) (m : Memory) (w : CmdWord) : Option (List MicroOp) :=
  match decode cfg.exposeInternal w with
  | .op i => fullList cfg m i
  | .ignored _ => some []

/-- The ticks a presented word takes (R234): one for an ignored word. -/
def wordTicks (cfg : Config) (m : Memory) (w : CmdWord) : Option Nat :=
  match decode cfg.exposeInternal w with
  | .op i => (fullList cfg m i).map (fun x => ticksOf x (fetchTicks cfg m i))
  | .ignored _ => some 1

/-- What a script executes: the lists of its words in order (R84, R223); none if some WSTR never ends. -/
def scriptList (cfg : Config) (m : Memory) : List CmdWord → Option (List MicroOp)
  | [] => some []
  | w :: rest =>
    match wordList cfg m w, scriptList cfg m rest with
    | some x, some xs => some (x ++ xs)
    | _, _ => none

/-- The inputs by which a host runs a script (R84, R226): each word in a tick, then nothing until BUSY is 0 again. -/
def scriptInputs (cfg : Config) (m : Memory) : List CmdWord → Option (List TickInput)
  | [] => some []
  | w :: rest =>
    match wordTicks cfg m w, scriptInputs cfg m rest with
    | some t, some ins => some (TickInput.command w :: (List.replicate (t - 1) TickInput.none ++ ins))
    | _, _ => none

/-- The last nibble an INIT_SEQ item sends, none if it sends none (R133). -/
def itemLastNibble (cfg : Config) : InitItem → Option Nibble
  | .nib n => some n
  | .cmd b => some (lowNibble b)
  | .clr => some (lowNibble cfg.clearCode)
  | .wait _ => none

/-- The last nibble INIT sends (R133). -/
def lastInitNibble (cfg : Config) : Option Nibble := (cfg.initSeq.filterMap (itemLastNibble cfg)).getLast?

end Sys2Proof.Machine
end

