-- ==== Sys2Proof/Machine/Assembler.lean ====
section
/-! DEFINITION. The assembler notation of spec/30_encoding.md R85: one line of text to one operation, or to the
`.string` directive, which is a statement about the string space and no operation.  Spaces and tabs separate; the
choices R85 leaves open are log entry 20. -/

namespace Sys2Proof.Machine

/-- The tokens of a line. -/
inductive AsmToken where
  | word (cs : List Char)
  | num (n : Nat)
  | comma
  | text (cs : List Char)
  deriving DecidableEq, Repr

/-- What a line says. -/
inductive AsmLine where
  /-- an empty line or a comment -/
  | blank
  /-- an operation -/
  | op (i : Instr)
  /-- `.string addr, "text"`: the ASCII codes of the text from addr on, then one TERM byte -/
  | string (addr : Addr) (text : List Byte)
  deriving DecidableEq, Repr

/-- The value of a decimal or hexadecimal digit. -/
def digitValue (c : Char) : Option Nat :=
  if 48 ≤ c.toNat ∧ c.toNat ≤ 57 then some (c.toNat - 48)
  else if 65 ≤ c.toNat ∧ c.toNat ≤ 70 then some (c.toNat - 55)
  else if 97 ≤ c.toNat ∧ c.toNat ≤ 102 then some (c.toNat - 87)
  else none

/-- Digits in a base, most significant first, onto what was read before. -/
def readDigits (base acc : Nat) : List Char → Option Nat
  | [] => some acc
  | c :: rest =>
    match digitValue c with
    | some d => if d < base then readDigits base (acc * base + d) rest else none
    | none => none

/-- A decimal number, or a hexadecimal one after `0x`. -/
def readNumber : List Char → Option Nat
  | [] => none
  | '0' :: 'x' :: [] => none
  | '0' :: 'x' :: hs => readDigits 16 0 hs
  | ds => readDigits 10 0 ds

/-- Letters, digits and the dot of a directive: what a word or a number is made of. -/
def wordChar (c : Char) : Bool :=
  (48 ≤ c.toNat && c.toNat ≤ 57) || (65 ≤ c.toNat && c.toNat ≤ 90) || (97 ≤ c.toNat && c.toNat ≤ 122) || c == '.'

/-- The tokens of a line, up to a comment.  `fuel` is at least the number of characters. -/
def tokens : Nat → List Char → Option (List AsmToken)
  | _, [] => some []
  | 0, _ :: _ => none
  | fuel + 1, c :: rest =>
    if c == ' ' || c == '\t' then tokens fuel rest
    else if c == ';' then some []
    else if c == ',' then (tokens fuel rest).map (AsmToken.comma :: ·)
    else if c == '\'' then
      match rest with
      | x :: '\'' :: more => if x.toNat < 128 then (tokens fuel more).map (AsmToken.num x.toNat :: ·) else none
      | _ => none
    else if c == '"' then
      match rest.dropWhile (· != '"') with
      | _ :: more => (tokens fuel more).map (AsmToken.text (rest.takeWhile (· != '"')) :: ·)
      | [] => none
    else if wordChar c then
      let w := (c :: rest).takeWhile wordChar
      let more := (c :: rest).dropWhile wordChar
      if 48 ≤ c.toNat && c.toNat ≤ 57 then
        match readNumber w, tokens fuel more with
        | some n, some ts => some (AsmToken.num n :: ts)
        | _, _ => none
      else (tokens fuel more).map (AsmToken.word w :: ·)
    else none

/-- The ASCII codes of a text. -/
def asciiBytes : List Char → Option (List Byte)
  | [] => some []
  | c :: rest => if c.toNat < 128 then (asciiBytes rest).map (BitVec.ofNat 8 c.toNat :: ·) else none

/-- The forms of R85, each operand in its range; ignored bits are written 0 (R78). -/
def parseLine (ts : List AsmToken) : Option AsmLine :=
  match ts with
  | [] => some .blank
  | [.word ['I', 'N', 'I', 'T']] => some (.op (.init 0))
  | [.word ['S', 'T', 'R', 'O', 'B', 'E']] => some (.op (.strobe 0))
  | [.word ['N', 'I', 'B', 'B', 'L', 'E'], .num n, .comma, .num c] =>
    if n ≤ 15 ∧ c ≤ 1 then some (.op (.nibble 0 (BitVec.ofNat 4 n) 0 (c == 1))) else none
  | [.word ['W', 'C', 'M', 'D'], .num b] =>
    if b ≤ 255 then some (.op (.wcmd (BitVec.ofNat 8 b) 0)) else none
  | [.word ['W', 'C', 'H', 'R'], .num b] =>
    if b ≤ 255 then some (.op (.wchr (BitVec.ofNat 8 b) 0)) else none
  | [.word ['W', 'S', 'T', 'R'], .num a] =>
    if a ≤ 0xFFFF then some (.op (.wstr (BitVec.ofNat 16 a))) else none
  | [.word ['C', 'L', 'E', 'A', 'R']] => some (.op (.clear 0))
  | [.word ['S', 'E', 'T', 'C', 'U', 'R'], .num row, .comma, .num col] =>
    if row ≤ 255 ∧ col ≤ 255 then some (.op (.setcur (BitVec.ofNat 8 row) (BitVec.ofNat 8 col))) else none
  | [.word ['.', 's', 't', 'r', 'i', 'n', 'g'], .num a, .comma, .text cs] =>
    if a ≤ 0xFFFF then (asciiBytes cs).map (AsmLine.string (BitVec.ofNat 16 a)) else none
  | _ => none

/-- One line of assembler text. -/
def assembleLine (cs : List Char) : Option AsmLine := (tokens cs.length cs).bind parseLine

/-- A program text: the command script (R84) of its operations in order, and the string space its directives state,
on top of what the host has there.  The directives are written in line order, so where the bytes of two overlap the
later line's hold.  DESIGN CHOICE (log entry 20): R85 does not say which do. -/
def assemble (term : Byte) : List (List Char) → Memory → Option (List CmdWord × Memory)
  | [], m => some ([], m)
  | line :: rest, m =>
    match assembleLine line with
    | some .blank => assemble term rest m
    | some (.op i) => (assemble term rest m).map (fun (ws, m') => (encode i :: ws, m'))
    | some (.string a text) => assemble term rest (m.writeBytes a (text ++ [term]))
    | none => none

end Sys2Proof.Machine
end

