-- ==== Sys2Proof/Safety.lean ====
section
/-! DEFINITION. What claims are stated in: runs of the machine, quiet inputs, the idle state, the host's duties
(spec/00_scope.md R15, spec/70_reset_and_hazards.md R226 to R228) and the invariant of every reachable state. -/

namespace Sys2Proof.Machine

/-- `k` ticks of the machine. -/
def run (k : Nat) (s : State) : Host.Outcome State Fault Refusal := Host.Core.run Sys2Proof.core k s

/-- A tick in which nothing comes from outside: no reset, no command, no host store. -/
def TickInput.quiet (i : TickInput) : Bool := !i.reset && !i.cmdValid && i.stores.isEmpty

/-- The next `k` ticks are quiet. -/
def State.quietFor (k : Nat) (s : State) : Prop := ∀ i ∈ s.inputs.take k, i.quiet = true

/-- No RESET in the next `k` ticks. -/
def State.noResetFor (k : Nat) (s : State) : Prop := ∀ i ∈ s.inputs.take k, i.reset = false

/-- The block is idle (R13), with what R35 says an idle block holds. -/
structure State.Idle (s : State) : Prop where
  busy : s.busy = false
  dly : s.dly = 0
  pend : s.pend = []
  str : s.str = false

/-- `s` with the inputs of `k` ticks taken. -/
def State.dropInputs (k : Nat) (s : State) : State := { s with inputs := s.inputs.drop k }

/-- Every register of the block holds the same (R20). -/
structure State.SameRegisters (s t : State) : Prop where
  lat : t.lat = s.lat
  dir : t.dir = s.dir
  dly : t.dly = s.dly
  busy : t.busy = s.busy
  initd : t.initd = s.initd
  str : t.str = s.str
  opc : t.opc = s.opc
  arg0 : t.arg0 = s.arg0
  arg1 : t.arg1 = s.arg1
  sp : t.sp = s.sp
  pend : t.pend = s.pend
  tr : t.tr = s.tr

/-- R226: in this tick the host presents a word only to an idle block. -/
def State.hostWaits (s : State) : Prop := s.busy = true → s.input.reset = false → s.input.cmdValid = false

/-- R228: a TERM byte is reachable from `ptr`. -/
def terminated (cfg : Config) (m : Memory) (ptr : Addr) : Prop := (stringOf cfg.term m ptr).isSome = true

/-- The word is INIT. -/
def isInit (exposeInternal : Bool) (w : CmdWord) : Bool :=
  match decode exposeInternal w with
  | .op i => i.opcode == 0
  | .ignored _ => false

/-- R134, R222: the first word of the script is INIT, and no other word is. -/
def initFirst (exposeInternal : Bool) : List CmdWord → Bool
  | [] => false
  | w :: rest => isInit exposeInternal w && rest.all (fun v => !isInit exposeInternal v)

/-- The invariant of every reachable state. -/
structure State.Inv (s : State) : Prop where
  /-- the configuration is one of this hardware (R5) -/
  config : s.cfg.ok = true
  /-- the string space is in its canonical form -/
  memory : s.mem.wf = true
  /-- R35 -/
  idle : s.busy = false → s.dly = 0 ∧ s.pend = [] ∧ s.str = false
  /-- DLY is a value of W_DLY bits (R20, R24) -/
  dlyFits : s.dly < 2 ^ s.cfg.wDly
  /-- every DLY(n) still to run has n below 2^W_DLY (R100) -/
  loadsFit : ∀ n, MicroOp.dly n ∈ s.pend → n < 2 ^ s.cfg.wDly
  /-- STR is 1 only while a WSTR runs (R25) -/
  strIsWstr : s.str = true → s.opc = 5
  /-- only INIT makes a role an output (R203) -/
  dirIsInit : ∀ p, MicroOp.dirOut p ∈ s.pend → s.opc = 0
  /-- from INIT's acceptance on, what is pending ends with E low and all six roles outputs (R22, R115, R133) -/
  eLow : s.initd = true ∨ (s.busy = true ∧ s.opc = 0) →
    getRole (latAfter s.pend s.lat) .e = false ∧ dirAfter s.pend s.dir = 0
  /-- once INIT has completed all six roles are outputs (R22) -/
  outputs : s.initd = true → s.dir = 0
  /-- LAT and DIR are what the event log makes of their reset values (R29, R113) -/
  log : s.lat = latAfter s.tr s.cfg.latReset ∧ s.dir = dirAfter s.tr 0b111111

/-- A run of `k` ticks that never stops. -/
def SafeRun (k : Nat) (s : State) : Prop := ∃ t, run k s = .next t

end Sys2Proof.Machine
end

