-- ==== Sys2Proof/Certificates/Slice0/Obligations.lean ====
section
/-! DEFINITION. The statements for the provers.  A tick's input is named by the state that waits for it: `s.input`; the
state with that input taken (the host's stores of the tick included) is `s.takeInput`. -/

open Sys2Proof Sys2Proof.Machine

/-! Encoding. -/

/-- Decoding what a well-formed instruction encodes to gives it back, at both values of EXPOSE_INTERNAL and with
every operand and every ignored bit at every value. -/
def Obligations.DecodeOfEncode : Prop :=
  ∀ (e : Bool) (i : Instr), i.wellFormed e = true → decode e (encode i) = .op i

/-- A word has one meaning: encoding what it decodes to gives the word back, and the decoder answers well-formed
instructions only (R81, R83, which the spec marks as derived).  That the ignored bits come back too is the model's choice
to keep them in the instruction (DESIGN CHOICE, log entry 13): by R78 and R83 0x00FFFF is INIT, and an assembler writes
0x000000. -/
def Obligations.EncodeOfDecode : Prop :=
  ∀ (e : Bool) (w : CmdWord) (i : Instr), decode e w = .op i → encode i = w ∧ i.wellFormed e = true

/-- R83, case by case: what every 24-bit word decodes to.
The spec marks R83 as derived; the ignored bits are kept in the instruction by the model's choice (log entry 13). -/
def Obligations.DecoderFollowsTheRule : Prop :=
  ∀ (e : Bool) (w : CmdWord), decode e w =
    if w.extractLsb' 16 8 = 0x00#8 then .op (.init (w.extractLsb' 0 16))
    else if w.extractLsb' 16 8 = 0x01#8 then
      (if e = true then .op (.strobe (w.extractLsb' 0 16)) else .ignored .internalNotExposed)
    else if w.extractLsb' 16 8 = 0x02#8 then
      (if e = true then .op (.nibble (w.extractLsb' 12 4) (w.extractLsb' 8 4) (w.extractLsb' 1 7) (w.getLsbD 0))
       else .ignored .internalNotExposed)
    else if w.extractLsb' 16 8 = 0x03#8 then .op (.wcmd (w.extractLsb' 8 8) (w.extractLsb' 0 8))
    else if w.extractLsb' 16 8 = 0x04#8 then .op (.wchr (w.extractLsb' 8 8) (w.extractLsb' 0 8))
    else if w.extractLsb' 16 8 = 0x05#8 then .op (.wstr (w.extractLsb' 0 16))
    else if w.extractLsb' 16 8 = 0x06#8 then .op (.clear (w.extractLsb' 0 16))
    else if w.extractLsb' 16 8 = 0x07#8 then .op (.setcur (w.extractLsb' 8 8) (w.extractLsb' 0 8))
    else .ignored .reservedOpcode

/-- R71: the opcode map's match and mask select the operation, no operand bit does, and acceptance latches OP[2:0],
A0 and A1 of the word. -/
def Obligations.OpAloneSelectsTheOperation : Prop :=
  (∀ row ∈ opcodeMap, row.mask = 0xFF0000#24 ∧ row.pattern.toNat = row.opcode.toNat * 0x10000 ∧
    ∀ w : CmdWord, (∃ i, decode true w = .op i ∧ i.opcode = row.opcode) ↔ w &&& row.mask = row.pattern) ∧
  (∀ (e : Bool) (w w' : CmdWord), w.extractLsb' 16 8 = w'.extractLsb' 16 8 →
    (∀ i, decode e w = .op i → ∃ i', decode e w' = .op i' ∧ i'.opcode = i.opcode) ∧
    (∀ why, decode e w = .ignored why → decode e w' = .ignored why)) ∧
  (∀ (s : State) (w : CmdWord) (i : Instr), s.busy = false → decode s.cfg.exposeInternal w = .op i →
    ∃ t, exec i s = .next t ∧ t.opc = w.extractLsb' 16 3 ∧ t.arg0 = w.extractLsb' 8 8 ∧
      t.arg1 = w.extractLsb' 0 8)

/-- A sanity statement: words of spec/95_test_vectors.md section 2.1 (V1 to V15) and what they decode to. -/
def Obligations.VectorWordsDecode : Prop :=
  decode false 0x000000#24 = .op (.init 0) ∧ decode false 0x00FFFF#24 = .op (.init 0xFFFF) ∧
  decode false 0x010000#24 = .ignored .internalNotExposed ∧ decode true 0x010000#24 = .op (.strobe 0) ∧
  decode true 0x02FAFF#24 = .op (.nibble 0xF 0xA 0x7F true) ∧ decode false 0x0328FF#24 = .op (.wcmd 0x28 0xFF) ∧
  decode false 0x044100#24 = .op (.wchr 0x41 0) ∧ decode false 0x05FFFF#24 = .op (.wstr 0xFFFF) ∧
  decode false 0x060000#24 = .op (.clear 0) ∧ decode false 0x070563#24 = .op (.setcur 5 99) ∧
  decode true 0x080000#24 = .ignored .reservedOpcode ∧ decode true 0xFF0000#24 = .ignored .reservedOpcode

/-- R80: a reserved opcode decodes to nothing, and presented to an idle block it changes no register and moves no
port. -/
def Obligations.ReservedWordChangesNothing : Prop :=
  ∀ s : State, s.cfg.ok = true → s.input.reset = false → s.busy = false → s.input.cmdValid = true →
    8 ≤ (s.input.cmdWord.extractLsb' 16 8).toNat →
    decode s.cfg.exposeInternal s.input.cmdWord = .ignored .reservedOpcode ∧
    ∃ t, step s = .next t ∧ s.SameRegisters t ∧ t.busy = false ∧ t.ports = s.ports ∧ t.tr = s.tr ∧ t.cfg = s.cfg

/-- R81: with EXPOSE_INTERNAL false the opcodes 0x01 and 0x02 are treated as reserved; with it true they are accepted.
Either way the other operations are made of the two building blocks. -/
def Obligations.InternalOpcodesNeedTheStrap : Prop :=
  (∀ s : State, s.cfg.ok = true → s.input.reset = false → s.busy = false → s.input.cmdValid = true →
    s.input.cmdWord.extractLsb' 16 8 = 0x01#8 ∨ s.input.cmdWord.extractLsb' 16 8 = 0x02#8 →
    (s.cfg.exposeInternal = false → ∃ t, step s = .next t ∧ s.SameRegisters t ∧ t.ports = s.ports) ∧
    (s.cfg.exposeInternal = true → ∃ i t, i.isInternal = true ∧ decode true s.input.cmdWord = .op i ∧
      exec i s.takeInput = .next t ∧ step s = .next t ∧ t.busy = true)) ∧
  (∀ (cfg : Config) (b : Byte) (c : Bool),
    xByte cfg b c = xNibble cfg (highNibble b) c ++ xNibble cfg (lowNibble b) c ++ [.dly cfg.nCmd] ∧
    ∃ pre, xNibble cfg (lowNibble b) c = pre ++ xStrobe cfg)

/-- R78: the ignored operand bits change nothing but the operand latches they are part of; they are not checked; an
assembler writes them as 0. -/
def Obligations.IgnoredBitsChangeNothing : Prop :=
  (∀ (i : Instr) (s t : State), exec i s = .next t →
    exec i.assembled s =
      .next { t with arg0 := i.assembled.operandBytes.a0, arg1 := i.assembled.operandBytes.a1 }) ∧
  (∀ (e : Bool) (w : CmdWord) (i : Instr), decode e w = .op i →
    i.assembled.canonical = true ∧ decode e (encode i.assembled) = .op i.assembled)

/-- R26: nothing reads ARG0 and ARG1 after acceptance: two states that differ only there take steps that differ only
there, or not at all. -/
def Obligations.OperandLatchesAreNotRead : Prop :=
  ∀ (s t : State) (a b : Byte), step s = .next t →
    ∃ a' b', step { s with arg0 := a, arg1 := b } = .next { t with arg0 := a', arg1 := b' }

/-! Acceptance of each operation. -/

/-- INIT in an idle block (R130, R131): it completes its acceptance, with PEND the list of R131. -/
def Obligations.InitIsAccepted : Prop :=
  ∀ (x : BitVec 16) (s : State), s.busy = false →
    exec (.init x) s = .next { s with
      opc := 0, arg0 := x.extractLsb' 8 8, arg1 := x.extractLsb' 0 8, busy := true, str := false,
      pend := [.dirOut .e, .dirOut .rs, .dirOut .d4, .dirOut .d5, .dirOut .d6, .dirOut .d7] ++
        [.pin .e false, .pin .rs false, .pin .d4 false, .pin .d5 false, .pin .d6 false, .pin .d7 false] ++
        s.cfg.initSeq.flatMap (fun it => match it with
          | .nib n => xNibble s.cfg n true
          | .cmd b => xWcmd s.cfg b
          | .clr => xClear s.cfg
          | .wait k => [.dly k]) }

/-- STROBE in an idle block (R140, R141). -/
def Obligations.StrobeIsAccepted : Prop :=
  ∀ (x : BitVec 16) (s : State), s.busy = false →
    exec (.strobe x) s = .next { s with
      opc := 1, arg0 := x.extractLsb' 8 8, arg1 := x.extractLsb' 0 8, busy := true, str := false,
      pend := [.pin .e true, .dly s.cfg.nPw, .pin .e false] }

/-- NIBBLE in an idle block (R142, R143, R144, R145). -/
def Obligations.NibbleIsAccepted : Prop :=
  ∀ (xHigh : BitVec 4) (n : Nibble) (xLow : BitVec 7) (c : Bool) (s : State), s.busy = false →
    exec (.nibble xHigh n xLow c) s = .next { s with
      opc := 2, arg0 := xHigh ++ n, arg1 := xLow ++ BitVec.ofBool c, busy := true, str := false,
      pend := [.pin .d4 (n.getLsbD 0), .pin .d5 (n.getLsbD 1), .pin .d6 (n.getLsbD 2), .pin .d7 (n.getLsbD 3),
        .pin .rs (!c), .pin .e true, .dly s.cfg.nPw, .pin .e false] }

/-- WCMD and WCHR in an idle block (R150, R151, R155): the seventeen micro-ops of R155, RS low for WCMD and high for
WCHR, for every byte. -/
def Obligations.ByteTransfersAreAccepted : Prop :=
  ∀ (b x : Byte) (s : State), s.busy = false →
    (exec (.wcmd b x) s = .next { s with
      opc := 3, arg0 := b, arg1 := x, busy := true, str := false,
      pend := [.pin .d4 (b.getLsbD 4), .pin .d5 (b.getLsbD 5), .pin .d6 (b.getLsbD 6), .pin .d7 (b.getLsbD 7),
        .pin .rs false, .pin .e true, .dly s.cfg.nPw, .pin .e false,
        .pin .d4 (b.getLsbD 0), .pin .d5 (b.getLsbD 1), .pin .d6 (b.getLsbD 2), .pin .d7 (b.getLsbD 3),
        .pin .rs false, .pin .e true, .dly s.cfg.nPw, .pin .e false, .dly s.cfg.nCmd] }) ∧
    (exec (.wchr b x) s = .next { s with
      opc := 4, arg0 := b, arg1 := x, busy := true, str := false,
      pend := [.pin .d4 (b.getLsbD 4), .pin .d5 (b.getLsbD 5), .pin .d6 (b.getLsbD 6), .pin .d7 (b.getLsbD 7),
        .pin .rs true, .pin .e true, .dly s.cfg.nPw, .pin .e false,
        .pin .d4 (b.getLsbD 0), .pin .d5 (b.getLsbD 1), .pin .d6 (b.getLsbD 2), .pin .d7 (b.getLsbD 3),
        .pin .rs true, .pin .e true, .dly s.cfg.nPw, .pin .e false, .dly s.cfg.nCmd] })

/-- WSTR in an idle block (R104, R152). -/
def Obligations.WstrIsAccepted : Prop :=
  ∀ (ptr : Addr) (s : State), s.busy = false →
    exec (.wstr ptr) s = .next { s with
      opc := 5, arg0 := ptr.extractLsb' 8 8, arg1 := ptr.extractLsb' 0 8, busy := true, str := true, sp := ptr,
      pend := [] }

/-- CLEAR in an idle block (R170, R173): the clear command byte as WCMD sends it, then DLY(N_CLR); eighteen
micro-ops, the last two DLY(N_CMD) and DLY(N_CLR). -/
def Obligations.ClearIsAccepted : Prop :=
  ∀ (x : BitVec 16) (s : State), s.busy = false →
    exec (.clear x) s = .next { s with
      opc := 6, arg0 := x.extractLsb' 8 8, arg1 := x.extractLsb' 0 8, busy := true, str := false,
      pend := xWcmd s.cfg s.cfg.clearCode ++ [.dly s.cfg.nClr] } ∧
    (xWcmd s.cfg s.cfg.clearCode ++ [MicroOp.dly s.cfg.nClr]).length = 18 ∧
    ∃ pre, xWcmd s.cfg s.cfg.clearCode ++ [.dly s.cfg.nClr] = pre ++ [.dly s.cfg.nCmd, .dly s.cfg.nClr]

/-- SETCUR in an idle block (R171, R174), for every row and column: the byte `SETADDR_BASE OR ADDR(POS(row, col))` as
WCMD sends it. -/
def Obligations.SetcurIsAccepted : Prop :=
  ∀ (row col : Byte) (s : State), s.busy = false →
    exec (.setcur row col) s = .next { s with
      opc := 7, arg0 := row, arg1 := col, busy := true, str := false,
      pend := xWcmd s.cfg (s.cfg.setAddrBase |||
        BitVec.ofNat 8 (if row.toNat < 2 ∧ col.toNat < s.cfg.cols then row.toNat * s.cfg.rowOffset + col.toNat
          else 1 * s.cfg.rowOffset + 0)) }

/-- The frame of every operation's acceptance: beside OPC, ARG0, ARG1, BUSY, STR and PEND, and SP for WSTR, nothing
changes: no latch, no direction bit, not DLY, not INITD, not the log, no byte of the string space, not the
configuration, no waiting input. -/
def Obligations.AcceptanceFrame : Prop :=
  ∀ (i : Instr) (s t : State), exec i s = .next t →
    t.lat = s.lat ∧ t.dir = s.dir ∧ t.dly = s.dly ∧ t.initd = s.initd ∧ t.tr = s.tr ∧ t.cfg = s.cfg ∧
    t.inputs = s.inputs ∧ (∀ p, t.pinOut p = s.pinOut p) ∧ (∀ a : Addr, t.mem.read a = s.mem.read a) ∧
    ((∀ ptr, i ≠ .wstr ptr) → t.sp = s.sp)

/-! The steps. -/

/-- R104, the idle step, whole. -/
def Obligations.IdleStepAccepts : Prop :=
  ∀ s : State, s.cfg.ok = true → s.input.reset = false → s.busy = false →
    (s.input.cmdValid = false → step s = .next s.takeInput) ∧
    (s.input.cmdValid = true →
      (∀ why, decode s.cfg.exposeInternal s.input.cmdWord = .ignored why → step s = .next s.takeInput) ∧
      (∀ ptr, decode s.cfg.exposeInternal s.input.cmdWord = .op (.wstr ptr) →
        step s = .next { s.takeInput with
          opc := s.input.cmdWord.extractLsb' 16 3, arg0 := s.input.cmdWord.extractLsb' 8 8,
          arg1 := s.input.cmdWord.extractLsb' 0 8, busy := true, sp := ptr, str := true, pend := [] }) ∧
      (∀ i, decode s.cfg.exposeInternal s.input.cmdWord = .op i → (∀ ptr, i ≠ .wstr ptr) →
        ∃ x, expansion s.cfg i = some x ∧
          step s = .next { s.takeInput with
            opc := s.input.cmdWord.extractLsb' 16 3, arg0 := s.input.cmdWord.extractLsb' 8 8,
            arg1 := s.input.cmdWord.extractLsb' 0 8, busy := true, str := false, pend := x }))

/-- A step runs the decoded instruction: in an idle block, with no reset, the step on a presented word is the meaning
of what the word decodes to, in the state with this tick's input taken; and so it is for a word placed by
`withFetchWord`.  That second clause is about the model's own placement of a word, which makes the block idle and sets
EXPOSE_INTERNAL for an internal opcode, and about `decodeTableWord`, which decodes with that strap set (DESIGN CHOICE, log
entry 14): no rule of the spec. -/
def Obligations.StepRunsTheDecodedInstruction : Prop :=
  (∀ (s : State) (i : Instr), s.cfg.ok = true → s.input.reset = false → s.busy = false →
    s.input.cmdValid = true → decode s.cfg.exposeInternal s.input.cmdWord = .op i →
    step s = exec i s.takeInput) ∧
  (∀ (s : State) (nbits w : Nat) (i : Instr), s.cfg.ok = true → decodeTableWord nbits w = some i →
    step (s.withFetchWord nbits w) = exec i (s.withFetchWord nbits w).takeInput ∧
    ∃ t, step (s.withFetchWord nbits w) = .next t ∧ t.busy = true ∧ t.opc = i.opcode)

/-- R105, the delay step: DLY goes down by one and nothing else changes. -/
def Obligations.DelayStepCountsDown : Prop :=
  ∀ s : State, s.cfg.ok = true → s.input.reset = false → s.busy = true → s.input.cmdValid = false → s.dly ≠ 0 →
    step s = .next { s.takeInput with dly := s.dly - 1 } ∧
    ∀ t, step s = .next t → (∀ p, t.pinOut p = s.pinOut p) ∧ t.tr = s.tr ∧ t.pend = s.pend

/-- R106 with R101: the execute step on DIR_OUT(p). -/
def Obligations.DirOutMakesAnOutput : Prop :=
  (∀ (s : State) (p : Role) (rest : List MicroOp), s.cfg.ok = true → s.input.reset = false → s.busy = true →
    s.input.cmdValid = false → s.dly = 0 → s.pend = .dirOut p :: rest →
    ∃ d, step s = .next { s.takeInput with dir := d, pend := rest, tr := s.tr ++ [.dirOut p] } ∧
      getRole d p = false ∧ (∀ q, q ≠ p → getRole d q = getRole s.dir q) ∧
      (getRole s.dir p = false → d = s.dir) ∧
      ∀ t, step s = .next t → t.pinOut p = .driven (getRole s.lat p)) ∧
  (∀ (m : MicroOp) (d : RoleBits) (q : Role), getRole d q = false → getRole (dirStep d m) q = false)

/-- R106 with R102: the execute step on PIN(p, v). -/
def Obligations.PinWritesOneLatch : Prop :=
  ∀ (s : State) (p : Role) (v : Bool) (rest : List MicroOp), s.cfg.ok = true → s.input.reset = false →
    s.busy = true → s.input.cmdValid = false → s.dly = 0 → s.pend = .pin p v :: rest →
    ∃ l, step s = .next { s.takeInput with lat := l, pend := rest, tr := s.tr ++ [.pin p v] } ∧
      getRole l p = v ∧ (∀ q, q ≠ p → getRole l q = getRole s.lat q) ∧ (getRole s.lat p = v → l = s.lat) ∧
      ∀ t, step s = .next t →
        (getRole s.dir p = false → t.pinOut p = .driven v) ∧ (getRole s.dir p = true → t.pinOut p = .z)

/-- R103 (and R105, R106): after DLY(n) executes, the n ticks that follow only count down, and the next micro-op
executes in the tick after DLY has reached 0; for n = 0 that is the next tick. -/
def Obligations.DlyHoldsTheSequencer : Prop :=
  ∀ (s : State) (n : Nat) (m : MicroOp) (rest : List MicroOp), s.cfg.ok = true → s.busy = true → s.dly = 0 →
    s.pend = .dly n :: m :: rest → s.quietFor (n + 2) →
    (∀ k, k ≤ n → run (1 + k) s = .next { s with
      dly := n - k, pend := m :: rest, tr := s.tr ++ [.dly n], inputs := s.inputs.drop (1 + k) }) ∧
    ∃ t, run (n + 2) s = .next t ∧ t.pend = rest ∧ t.tr = s.tr ++ [.dly n] ++ [m] ∧
      t.lat = latStep s.lat m ∧ t.dir = dirStep s.dir m ∧ t.dly = m.delay ∧ t.busy = true

/-- R107, the fetch step: MEM_ADDR carries the old SP, SP goes on by one modulo 2^16 whether or not the byte is TERM,
and a byte that is not TERM brings its X_WCHR.  The byte is read from the string space with this tick's host stores in
it: that a store in the very tick of the fetch is seen is the model's choice (DESIGN CHOICE, log entry 8), which R62 does
not settle. -/
def Obligations.FetchStepReadsOneByte : Prop :=
  ∀ s : State, s.cfg.ok = true → s.input.reset = false → s.busy = true → s.input.cmdValid = false → s.dly = 0 →
    s.pend = [] → s.str = true →
    s.memAddr = some s.sp ∧ (s.sp + 1).toNat = (s.sp.toNat + 1) % 2 ^ 16 ∧
    (s.takeInput.mem.read s.sp = s.cfg.term →
      step s = .next { s.takeInput with sp := s.sp + 1, str := false }) ∧
    (s.takeInput.mem.read s.sp ≠ s.cfg.term →
      step s = .next { s.takeInput with sp := s.sp + 1, pend := xWchr s.cfg (s.takeInput.mem.read s.sp) })

/-- R108, the completion step: BUSY falls, and INITD rises if the operation was INIT; nothing else changes. -/
def Obligations.CompletionStepEndsTheOperation : Prop :=
  ∀ s : State, s.cfg.ok = true → s.input.reset = false → s.busy = true → s.input.cmdValid = false → s.dly = 0 →
    s.pend = [] → s.str = false →
    (s.opc = 0 → step s = .next { s.takeInput with busy := false, initd := true }) ∧
    (s.opc ≠ 0 → step s = .next { s.takeInput with busy := false })

/-- R220, R224: RESET = 1 puts every register at its reset value whatever the state and the other inputs were (a
command presented to a busy block among them); all six pins go to Z; the configuration and the string space, but for
the host's own stores of the tick, are not touched; the block is then idle, and a quiet tick changes nothing. -/
def Obligations.ResetWinsOverEverything : Prop :=
  ∀ s : State, s.cfg.ok = true → s.input.reset = true →
    ∃ t, step s = .next t ∧
      t.lat = s.cfg.latReset ∧ t.dir = 0b111111#6 ∧ t.dly = 0 ∧ t.busy = false ∧ t.initd = false ∧
      t.str = false ∧ t.opc = 0 ∧ t.arg0 = 0 ∧ t.arg1 = 0 ∧ t.sp = 0 ∧ t.pend = [] ∧ t.tr = [] ∧
      (∀ p, t.pinOut p = .z) ∧ t.cfg = s.cfg ∧ t.mem = s.mem.writeAll s.input.stores ∧
      t.inputs = s.inputs.tail ∧ (t.input.reset = false → t.input.cmdValid = false → step t = .next t.takeInput)

/-- R36: the registers after reset, with the default configuration; every pin at Z, the block idle and not
initialised. -/
def Obligations.ResetStateHoldsTheResetValues : Prop :=
  State.reset.lat = 0b000000#6 ∧ State.reset.lat = State.reset.cfg.latReset ∧ State.reset.dir = 0b111111#6 ∧
  State.reset.dly = 0 ∧ State.reset.busy = false ∧ State.reset.initd = false ∧ State.reset.str = false ∧
  State.reset.opc = 0 ∧ State.reset.arg0 = 0 ∧ State.reset.arg1 = 0 ∧ State.reset.sp = 0 ∧
  State.reset.pend = [] ∧ State.reset.tr = [] ∧ (∀ p, State.reset.pinOut p = .z)

/-- R109, R190, U1, U11: a tick has a next state exactly when the configuration is one of this hardware and no word is
presented to a busy block; a refusal has no other ground; so a run never stops under a host that waits (R226).
That the model refuses is the spec's treatment of U1 and U11 (log entries 4, 5). -/
def Obligations.StepStopsOnlyOutsideTheHostsDuty : Prop :=
  (∀ (k : Nat) (s : State), s.cfg.ok = true → (∀ j < k, ∀ u, run j s = .next u → u.hostWaits) → SafeRun k s) ∧
  ∀ s : State,
    ((∃ t, step s = .next t) ↔ s.cfg.ok = true ∧ s.hostWaits) ∧
    (∀ r, step s = .refused r ↔ (s.cfg.ok = false ∧ r = .badConfiguration) ∨
      (s.cfg.ok = true ∧ s.input.reset = false ∧ s.busy = true ∧ s.input.cmdValid = true ∧
        r = .commandWhileBusy))

/-- R109: the next state is a function of the registers, this tick's inputs and the string space: inputs of later
ticks, and the word on CMD_WORD while CMD_VALID is 0 (R62), do not matter. -/
def Obligations.StepReadsThisTicksInputOnly : Prop :=
  (∀ (s t : State) (i : TickInput) (r r' : List TickInput), step { s with inputs := i :: r } = .next t →
    step { s with inputs := i :: r' } = .next { t with inputs := r' }) ∧
  (∀ (s t : State) (i : TickInput) (r : List TickInput) (w : CmdWord), i.cmdValid = false →
    step { s with inputs := i :: r } = .next t → step { s with inputs := { i with cmdWord := w } :: r } = .next t)

/-! Rules of the whole machine. -/

/-- R21: without reset a tick changes at most one latch bit, and only by the PIN micro-op at the head of PEND. -/
def Obligations.LatchesChangeOneBitPerTick : Prop :=
  ∀ (s t : State), step s = .next t → s.input.reset = false →
    ∀ p, getRole t.lat p ≠ getRole s.lat p →
      (∃ rest, s.busy = true ∧ s.dly = 0 ∧ s.pend = .pin p (getRole t.lat p) :: rest) ∧
      ∀ q, q ≠ p → getRole t.lat q = getRole s.lat q

/-- R22: without reset a tick changes at most one direction bit, from 1 to 0, and only by the DIR_OUT micro-op at the
head of PEND: no role is ever made an input again. -/
def Obligations.DirectionBitsAreOnlyCleared : Prop :=
  ∀ (s t : State), step s = .next t → s.input.reset = false →
    ∀ p, getRole t.dir p ≠ getRole s.dir p →
      getRole t.dir p = false ∧ (∃ rest, s.busy = true ∧ s.dly = 0 ∧ s.pend = .dirOut p :: rest) ∧
      ∀ q, q ≠ p → getRole t.dir q = getRole s.dir q

/-- R24: without reset DLY is loaded only by the DLY micro-op at the head of PEND and else only counted down by one;
while it is not zero no register but DLY changes. -/
def Obligations.DelayCounterIsLoadedByDlyOnly : Prop :=
  ∀ (s t : State), step s = .next t → s.input.reset = false →
    (s.busy = true → s.dly ≠ 0 → t.dly + 1 = s.dly ∧ State.SameRegisters { s with dly := t.dly } t) ∧
    (s.dly = 0 → t.dly ≠ s.dly → ∃ rest, s.busy = true ∧ s.pend = .dly t.dly :: rest) ∧
    (s.busy = false → t.dly = s.dly)

/-- R203: INIT alone writes DIR and alone sets INITD. -/
def Obligations.OnlyInitWritesDirAndInitd : Prop :=
  ∀ (s t : State), s.Inv → step s = .next t → s.input.reset = false →
    (t.dir ≠ s.dir → s.busy = true ∧ s.opc = 0) ∧
    (t.initd ≠ s.initd → s.busy = true ∧ s.opc = 0 ∧ s.pend = [] ∧ t.initd = true)

/-- R52, R62, R224: the string space changes only by the host's stores, reset or not; what the host stores in a tick
is what the address reads as after it, and every other address reads as before. -/
def Obligations.StringSpaceIsTheHosts : Prop :=
  (∀ (s t : State), step s = .next t → t.mem = s.mem.writeAll s.input.stores ∧ t.cfg = s.cfg) ∧
  (∀ (s t : State) (a : Addr) (b : Byte), s.mem.wf = true → step s = .next t → s.input.stores = [(a, b)] →
    t.mem.read a = b ∧ ∀ a', a' ≠ a → t.mem.read a' = s.mem.read a')

/-- R29, R106: without reset the log grows by at most one micro-op in a tick, and that is the head of PEND, executed
in a tick in which DLY is 0. -/
def Obligations.LogGrowsByWhatExecutes : Prop :=
  ∀ (s t : State), step s = .next t → s.input.reset = false →
    t.tr = s.tr ∨ ∃ m, s.busy = true ∧ s.dly = 0 ∧ s.pend = m :: t.pend ∧ t.tr = s.tr ++ [m]

/-- R30: STATUS in bits; R25, R104, R107, R108: BUSY, STR and INITD are set and cleared where those say.  The byte that
clears STR is read with this tick's host stores in the string space, the model's choice for a store in the very tick of
the fetch (DESIGN CHOICE, log entry 8). -/
def Obligations.StatusShowsBusyAndInitd : Prop :=
  (∀ s : State, s.status.getLsbD 0 = s.busy ∧ s.status.getLsbD 1 = s.initd ∧ s.status.extractLsb' 2 6 = 0#6) ∧
  (∀ (s t : State), step s = .next t → s.input.reset = false →
    (s.busy = false → t.busy = true → s.input.cmdValid = true) ∧
    (s.busy = true → t.busy = false → s.dly = 0 ∧ s.pend = [] ∧ s.str = false) ∧
    (s.busy = true → s.str = true → t.str = false → s.takeInput.mem.read s.sp = s.cfg.term) ∧
    (s.initd = true → t.initd = true))

/-- The model's own form of the string space (no rule of the spec; log entry 7): two string spaces in canonical form
that read alike at every address are the same data. -/
def Obligations.StringSpaceFormIsCanonical : Prop :=
  ∀ m m' : Memory, m.wf = true → m'.wf = true → (∀ a : Addr, m.read a = m'.read a) → m = m'

/-! The invariant. -/

/-- Every step keeps the invariant (R20, R22, R25, R29, R35, R100, R115, R203 as fields of `State.Inv`).
The spec marks R35 and R115 as derived. -/
def Obligations.StepKeepsTheInvariant : Prop :=
  ∀ (s t : State), s.Inv → step s = .next t → t.Inv

/-- The state after reset has the invariant, for every configuration of this hardware and every string space in its
form, whatever inputs wait. -/
def Obligations.ResetHasTheInvariant : Prop :=
  State.reset.Inv ∧
  ∀ (cfg : Config) (m : Memory) (ins : List TickInput), cfg.ok = true → m.wf = true →
    (State.resetWith cfg m ins).Inv

/-- R22, R115: once INIT has completed, and until a reset, all six roles stay outputs, INITD stays 1, and E is low
whenever the block is idle, however long it runs and whatever the host presents.
The spec marks R115 as derived. -/
def Obligations.EnableIsLowWhenIdleAfterInit : Prop :=
  ∀ (k : Nat) (s u : State), s.Inv → s.initd = true → s.noResetFor k → run k s = .next u →
    u.initd = true ∧ u.dir = 0 ∧ (∀ p, u.pinOut p = .driven (getRole u.lat p)) ∧
    (u.busy = false → u.pinOut .e = .driven false)

/-! Operations as a whole. -/

/-- R111: an operation other than WSTR, presented to an idle block, executes the micro-ops of X(d) in order, each
once, and the block is idle again after `2 + |X(d)| + delays` ticks, LAT and DIR being the fold of the list.
The spec marks R111 as derived, and the tick count is that of this rendering (log entry 21). -/
def Obligations.OperationRunsItsExpansion : Prop :=
  ∀ (s : State) (w : CmdWord) (rest : List TickInput) (i : Instr) (x : List MicroOp), s.cfg.ok = true →
    s.Idle → s.inputs = TickInput.command w :: rest → decode s.cfg.exposeInternal w = .op i →
    expansion s.cfg i = some x → ({ s with inputs := rest } : State).quietFor (1 + x.length + delaySum x) →
    run (2 + x.length + delaySum x) s = .next { s with
      lat := latAfter x s.lat, dir := dirAfter x s.dir, dly := 0, busy := false,
      initd := s.initd || i.opcode == 0, str := false, opc := i.opcode, arg0 := i.operandBytes.a0,
      arg1 := i.operandBytes.a1, pend := [], tr := s.tr ++ x,
      inputs := rest.drop (1 + x.length + delaySum x) }

/-- R111, R152, R154: WSTR on a terminated string of k bytes sends them one by one, `17 * k` micro-ops, `k + 1`
fetches, `2 + 17 * k + k * (2 * N_PW + N_CMD) + (k + 1)` ticks, and SP ends one past the terminator.
The spec marks R111 and R154 as derived, and the tick count is that of this rendering (log entry 21). -/
def Obligations.WstrSendsTheString : Prop :=
  ∀ (s : State) (w : CmdWord) (rest : List TickInput) (ptr : Addr) (bs : List Byte), s.cfg.ok = true →
    s.Idle → s.inputs = TickInput.command w :: rest → decode s.cfg.exposeInternal w = .op (.wstr ptr) →
    stringOf s.cfg.term s.mem ptr = some bs →
    ({ s with inputs := rest } : State).quietFor
      (1 + 17 * bs.length + bs.length * (2 * s.cfg.nPw + s.cfg.nCmd) + (bs.length + 1)) →
    (bs.flatMap (xWchr s.cfg)).length = 17 * bs.length ∧
    run (2 + 17 * bs.length + bs.length * (2 * s.cfg.nPw + s.cfg.nCmd) + (bs.length + 1)) s = .next { s with
      lat := latAfter (bs.flatMap (xWchr s.cfg)) s.lat, dly := 0, busy := false, str := false, opc := 5,
      arg0 := ptr.extractLsb' 8 8, arg1 := ptr.extractLsb' 0 8, sp := ptr + BitVec.ofNat 16 (bs.length + 1),
      pend := [], tr := s.tr ++ bs.flatMap (xWchr s.cfg),
      inputs := rest.drop (1 + 17 * bs.length + bs.length * (2 * s.cfg.nPw + s.cfg.nCmd) + (bs.length + 1)) }

/-- R153, R154: the string at ptr is the bytes from ptr on, modulo 2^16, up to the first TERM, and it is none exactly
when no address holds TERM.
The spec marks R154 as derived. -/
def Obligations.StringEndsAtTheFirstTerm : Prop :=
  ∀ (term : Byte) (m : Memory) (ptr : Addr),
    (stringOf term m ptr = none ↔ ∀ a : Addr, m.read a ≠ term) ∧
    (∀ bs, stringOf term m ptr = some bs →
      (∀ k, (hk : k < bs.length) → bs[k] = m.read (ptr + BitVec.ofNat 16 k) ∧ bs[k] ≠ term) ∧
      m.read (ptr + BitVec.ofNat 16 bs.length) = term) ∧
    (m.read ptr = term → stringOf term m ptr = some []) ∧
    (m.read ptr ≠ term → stringOf term m ptr = (stringOf term m (ptr + 1)).map (fun bs => m.read ptr :: bs))

/-- R152 (e): a WSTR on a string without a TERM byte never ends: as long as nothing comes from outside, BUSY stays 1,
for ever. -/
def Obligations.WstrWithoutTermNeverEnds : Prop :=
  ∀ (s t : State) (ptr : Addr) (k : Nat), s.cfg.ok = true → s.Idle → ¬ terminated s.cfg s.mem ptr →
    exec (.wstr ptr) s = .next t → t.quietFor k →
    ∃ u, run k t = .next u ∧ u.busy = true ∧ u.str = true

/-- R133: the state after INIT, whatever the idle state before: all roles outputs, E low, RS low and the data lines the
last nibble of INIT_SEQ (all latches low if it sends none), DLY 0, BUSY 0, INITD 1.
The spec marks R133 as derived. -/
def Obligations.InitLeavesTheInitialisedState : Prop :=
  ∀ (s : State) (x : BitVec 16) (rest : List TickInput), s.cfg.ok = true → s.Idle →
    s.inputs = TickInput.command (encode (.init x)) :: rest →
    ({ s with inputs := rest } : State).quietFor (1 + (xInit s.cfg).length + delaySum (xInit s.cfg)) →
    ∃ u, run (2 + (xInit s.cfg).length + delaySum (xInit s.cfg)) s = .next u ∧
      u.dir = 0 ∧ getRole u.lat .e = false ∧ u.dly = 0 ∧ u.busy = false ∧ u.initd = true ∧
      (∀ n, lastInitNibble s.cfg = some n → getRole u.lat .rs = false ∧ dataNibble u.lat = n) ∧
      (lastInitNibble s.cfg = none → u.lat = 0)

/-- R84, R223: a script executes the lists of its words in order, all of one before any of the next, and ends idle, with
E low if it was low.  The host is the one of `scriptInputs` (log entry 14), which presents each word in the first tick in
which the block is idle again after the word before, by the exact tick counts of this rendering (R111, which the spec
marks as derived; log entry 21).  A host that waits longer between words (R15, R84) is not in this statement. -/
def Obligations.ScriptRunsItsWordsInOrder : Prop :=
  ∀ (ws : List CmdWord) (s : State) (ins rest : List TickInput) (xs : List MicroOp), s.cfg.ok = true →
    s.Idle → scriptInputs s.cfg s.mem ws = some ins → scriptList s.cfg s.mem ws = some xs →
    s.inputs = ins ++ rest →
    ∃ u, run ins.length s = .next u ∧ u.Idle ∧ u.tr = s.tr ++ xs ∧ u.lat = latAfter xs s.lat ∧
      u.dir = dirAfter xs s.dir ∧ u.mem = s.mem ∧ u.cfg = s.cfg ∧ u.inputs = rest ∧
      (getRole s.lat .e = false → getRole u.lat .e = false)

/-- R222, R116, R133: a script whose first word is INIT and whose other words are not, run from reset, ends with INITD 1,
all six roles outputs and E low, and the controller has received the pulses of all its lists in order, whatever the
latches held at reset.  That a pulse counts as received by the directions at its opening is the model's reading (log entry
17).  The host is the one of `scriptInputs` (log entry 14), which presents each word in the first tick in which the block
is idle again, by the exact tick counts of this rendering (R111, which the spec marks as derived, as it does R133; log
entry 21). -/
def Obligations.BootedScriptIsReceivedWhole : Prop :=
  ∀ (ws : List CmdWord) (s : State) (ins rest : List TickInput) (xs : List MicroOp), s.cfg.ok = true →
    s = State.resetWith s.cfg s.mem (ins ++ rest) → initFirst s.cfg.exposeInternal ws = true →
    scriptInputs s.cfg s.mem ws = some ins → scriptList s.cfg s.mem ws = some xs →
    ∃ u, run ins.length s = .next u ∧ u.busy = false ∧ u.initd = true ∧ u.dir = 0 ∧ getRole u.lat .e = false ∧
      u.received = (pulses xs s.cfg.latReset).map (fun p => (p.rs, p.nib)) ∧ u.inputs = rest

/-- R141: STROBE's three micro-ops, and what they do to a driven wire of E that was low: it is high for N_PW + 2 ticks
and then low, with nothing after the fall; no other wire changes meanwhile.  R114, R140: from E low they make one pulse,
which samples RS and the data lines as they stand; from E high they make none. -/
def Obligations.StrobeHoldsEnableHigh : Prop :=
  (∀ cfg : Config, xStrobe cfg = [.pin .e true, .dly cfg.nPw, .pin .e false]) ∧
  (∀ (cfg : Config) (l : RoleBits),
    (getRole l .e = false → pulses (xStrobe cfg) l = [⟨getRole l .rs, dataNibble l, cfg.nPw⟩] ∧
      latAfter (xStrobe cfg) l = l) ∧
    (getRole l .e = true → pulses (xStrobe cfg) l = [] ∧ latAfter (xStrobe cfg) l = setRole l .e false)) ∧
  ∀ (s : State) (rest : List MicroOp), s.cfg.ok = true → s.busy = true → s.dly = 0 →
    s.pend = [.pin .e true, .dly s.cfg.nPw, .pin .e false] ++ rest → getRole s.lat .e = false → getRole s.dir .e = false →
    s.quietFor (s.cfg.nPw + 3) →
    s.pinOut .e = .driven false ∧
    (∀ k, 1 ≤ k → k ≤ s.cfg.nPw + 2 → ∃ u, run k s = .next u ∧ u.pinOut .e = .driven true ∧
      ∀ q, q ≠ .e → u.pinOut q = s.pinOut q) ∧
    ∃ u, run (s.cfg.nPw + 3) s = .next u ∧ u.pinOut .e = .driven false ∧ u.pend = rest ∧ u.dly = 0 ∧
      ∀ q, q ≠ .e → u.pinOut q = s.pinOut q

/-! What the pins show. -/

/-- R115: the shape of every expansion and of every X_WSTR: (a) each PIN(E, 1) is followed at once by DLY(N_PW) and
PIN(E, 0); (b) so no other pin moves while E is high; (c) E low before is E low after, and INIT leaves it low from any
latches; (d) every pulse is N_PW wide.
The spec marks R115 as derived. -/
def Obligations.ExpansionsKeepTheirShape : Prop :=
  ∀ (cfg : Config) (x : List MicroOp), cfg.ok = true →
    ((∃ i, expansion cfg i = some x) ∨ (∃ bs, x = xWstr cfg bs)) →
    (∀ pre post, x = pre ++ .pin .e true :: post →
      ∃ post', post = .dly cfg.nPw :: .pin .e false :: post') ∧
    (∀ pre mid post, x = pre ++ .pin .e true :: mid ++ .pin .e false :: post →
      (∀ v, MicroOp.pin .e v ∉ mid) → ∀ q v, MicroOp.pin q v ∉ mid) ∧
    (∀ l, getRole l .e = false → getRole (latAfter x l) .e = false) ∧
    (x = xInit cfg → ∀ l, getRole (latAfter x l) .e = false) ∧
    (∀ l, ∀ p ∈ pulses x l, p.width = cfg.nPw)

/-- R142 to R145: NIBBLE makes one pulse with RS = NOT c and the nibble n on D7..D4, and leaves them standing. -/
def Obligations.NibbleMakesOnePulse : Prop :=
  ∀ (cfg : Config) (n : Nibble) (c : Bool) (l : RoleBits), getRole l .e = false →
    pulses (xNibble cfg n c) l = [⟨!c, n, cfg.nPw⟩] ∧ dataNibble (latAfter (xNibble cfg n c) l) = n ∧
    getRole (latAfter (xNibble cfg n c) l) .rs = !c ∧ getRole (latAfter (xNibble cfg n c) l) .e = false

/-- R155 (and S1, S2 of R150, R151): the list of X_BYTE, twice X_NIBBLE and the settle; WCMD and WCHR are it with c = 1
and c = 0; from E low it makes exactly two pulses, with RS = NOT c, the high nibble first and the low nibble second,
which read as the byte (R116).
The tick count is that of this rendering (log entry 21). -/
def Obligations.ByteMakesTwoPulses : Prop :=
  ∀ (cfg : Config) (b : Byte) (c : Bool) (l : RoleBits),
    xByte cfg b c = xNibble cfg (b.extractLsb' 4 4) c ++ xNibble cfg (b.extractLsb' 0 4) c ++ [.dly cfg.nCmd] ∧
    xByte cfg b c =
      [.pin .d4 (b.getLsbD 4), .pin .d5 (b.getLsbD 5), .pin .d6 (b.getLsbD 6), .pin .d7 (b.getLsbD 7),
       .pin .rs (!c), .pin .e true, .dly cfg.nPw, .pin .e false,
       .pin .d4 (b.getLsbD 0), .pin .d5 (b.getLsbD 1), .pin .d6 (b.getLsbD 2), .pin .d7 (b.getLsbD 3),
       .pin .rs (!c), .pin .e true, .dly cfg.nPw, .pin .e false, .dly cfg.nCmd] ∧
    xWcmd cfg b = xByte cfg b true ∧ xWchr cfg b = xByte cfg b false ∧
    (getRole l .e = false →
      pulses (xByte cfg b c) l = [⟨!c, b.extractLsb' 4 4, cfg.nPw⟩, ⟨!c, b.extractLsb' 0 4, cfg.nPw⟩] ∧
      ∀ p q, pulses (xByte cfg b c) l = [p, q] → byteOf p q = b) ∧
    ticksOf (xByte cfg b c) 0 = 2 + 17 + 2 * cfg.nPw + cfg.nCmd

/-- R154 (S3): a string's list makes the pulses of its characters in order, two for each, and no other. -/
def Obligations.StringMakesItsCharactersPulses : Prop :=
  ∀ (cfg : Config) (bs : List Byte) (l : RoleBits), getRole l .e = false →
    pulses (xWstr cfg bs) l =
      bs.flatMap (fun b => [⟨true, b.extractLsb' 4 4, cfg.nPw⟩, ⟨true, b.extractLsb' 0 4, cfg.nPw⟩]) ∧
    (pulses (xWstr cfg bs) l).length = 2 * bs.length

/-- R170 (S4): CLEAR makes the pulses of its one command byte, and what follows its last fall of E is a longer delay
than after any WCMD. -/
def Obligations.ClearSettlesLonger : Prop :=
  ∀ (cfg : Config) (b : Byte) (l : RoleBits), cfg.ok = true → getRole l .e = false →
    pulses (xClear cfg) l = pulses (xWcmd cfg cfg.clearCode) l ∧
    (∃ pre, xWcmd cfg b = pre ++ [.pin .e false, .dly cfg.nCmd]) ∧
    (∃ pre, xClear cfg = pre ++ [.pin .e false, .dly cfg.nCmd, .dly cfg.nClr]) ∧
    delaySum [MicroOp.dly cfg.nCmd] < delaySum [.dly cfg.nCmd, .dly cfg.nClr]

/-- R132 (V40, V41): the default INIT has 118 micro-ops and makes these twelve pulses from every latch value; the
delay figures are those of R234.
The series is the spec's own choice (D13); the ticks are of this rendering (log entry 21). -/
def Obligations.DefaultInitMakesTwelvePulses : Prop :=
  (xInit Config.default).length = 118 ∧ delaySum (xInit Config.default) = 47452 ∧
  ticksOf (xInit Config.default) 0 = 47572 ∧
  ∀ l : RoleBits, (pulses (xInit Config.default) l).map (fun p => (p.rs, p.nib)) =
    [(false, 3), (false, 3), (false, 3), (false, 2), (false, 2), (false, 8), (false, 0), (false, 0xC), (false, 0),
     (false, 6), (false, 0), (false, 1)] ∧ latAfter (xInit Config.default) l = 0b000001#6

/-- R116: of the pulses in the log the controller receives all that were made with all six roles outputs, and none
while some role is an input and stays one.
That a pulse counts by the directions at its opening is the model's reading (log entry 17). -/
def Obligations.ControllerReceivesDrivenPulses : Prop :=
  (∀ (x : List MicroOp) (l : RoleBits), receivedFrom x l 0 none = pulses x l) ∧
  (∀ (x : List MicroOp) (l d : RoleBits), d ≠ 0 → (∀ p, MicroOp.dirOut p ∉ x) → receivedFrom x l d none = [])

/-! The cursor. -/

/-- R172: the range check, unsigned, and the substitution of the whole position. -/
def Obligations.CursorRangeCheck : Prop :=
  ∀ (cfg : Config) (row col : Byte),
    (row.toNat < 2 → col.toNat < cfg.cols → cursorPos cfg row col = (row.toNat, col.toNat)) ∧
    (2 ≤ row.toNat → cursorPos cfg row col = (1, 0)) ∧ (cfg.cols ≤ col.toNat → cursorPos cfg row col = (1, 0))

/-- R171 (S5): whenever row or column is out of range, SETCUR gives the same list as `SETCUR 1, 0`, and an accepted
`SETCUR 1, 0` cannot be told from it in PEND. -/
def Obligations.OutOfRangeCursorIsTheDefault : Prop :=
  ∀ (s t u : State) (row col : Byte), s.cfg.ok = true → 2 ≤ row.toNat ∨ s.cfg.cols ≤ col.toNat →
    exec (.setcur row col) s = .next t → exec (.setcur 1 0) s = .next u →
    t.pend = u.pend ∧ t = { u with arg0 := row, arg1 := col }

/-- R174, R175 (S6): in range, the address is below 0x80, the OR is the sum, and the bytes of one column in the two
rows are distinct and differ by exactly ROW_OFFSET. -/
def Obligations.CursorAddressArithmetic : Prop :=
  ∀ (cfg : Config) (row col : Byte), cfg.ok = true → row.toNat < 2 → col.toNat < cfg.cols →
    ddramAddr cfg row.toNat col.toNat = row.toNat * cfg.rowOffset + col.toNat ∧
    ddramAddr cfg row.toNat col.toNat < 0x80 ∧
    (setCursorByte cfg row col).toNat = cfg.setAddrBase.toNat + ddramAddr cfg row.toNat col.toNat ∧
    ddramAddr cfg 1 col.toNat = ddramAddr cfg 0 col.toNat + cfg.rowOffset ∧
    (setCursorByte cfg 1 col).toNat = (setCursorByte cfg 0 col).toNat + cfg.rowOffset ∧
    setCursorByte cfg 1 col ≠ setCursorByte cfg 0 col

/-! Figures. -/

/-- R234: micro-ops, delay sums and ticks of every operation, in symbols.
They are timing of this rendering (log entry 21). -/
def Obligations.TickCountsOfTheOperations : Prop :=
  ∀ (cfg : Config) (n : Nibble) (c : Bool) (b row col : Byte) (bs : List Byte),
    ticksOf (xStrobe cfg) 0 = 5 + cfg.nPw ∧ ticksOf (xNibble cfg n c) 0 = 10 + cfg.nPw ∧
    ticksOf (xWcmd cfg b) 0 = 19 + 2 * cfg.nPw + cfg.nCmd ∧ ticksOf (xWchr cfg b) 0 = 19 + 2 * cfg.nPw + cfg.nCmd ∧
    ticksOf (xSetcur cfg row col) 0 = 19 + 2 * cfg.nPw + cfg.nCmd ∧
    ticksOf (xClear cfg) 0 = 20 + 2 * cfg.nPw + cfg.nCmd + cfg.nClr ∧
    ticksOf (xWstr cfg bs) (bs.length + 1) = 3 + 18 * bs.length + bs.length * (2 * cfg.nPw + cfg.nCmd)

/-- R78, R85: whatever line of text the assembler reads, an operation it gives has its ignored bits 0.
The notation R85 leaves open is the model's choice (log entry 20). -/
def Obligations.AssemblerWritesCanonicalWords : Prop :=
  ∀ (line : List Char) (i : Instr), assembleLine line = some (.op i) → i.canonical = true
end

