-- ==== Sys2Proof/Laws/Bits.lean ====
section
/-! SUPPORT. The laws of one role's bit in LAT and DIR (spec/00_scope.md R9). -/

namespace Sys2Proof.Machine

/-- Reading a role after writing one: the written level there, the old level elsewhere. -/
@[simp] theorem getRole_setRole (v : RoleBits) (p q : Role) (b : Bool) :
    getRole (setRole v p b) q = if q = p then b else getRole v q := by
  revert v
  cases p <;> cases q <;> cases b <;> decide

theorem getRole_setRole_same (v : RoleBits) (p : Role) (b : Bool) : getRole (setRole v p b) p = b := by
  simp

theorem getRole_setRole_other (v : RoleBits) {p q : Role} (b : Bool) (h : q ≠ p) :
    getRole (setRole v p b) q = getRole v q := by
  simp [h]

/-- Six bits are determined by their roles. -/
theorem roleBits_ext {u v : RoleBits} (h : ∀ p, getRole u p = getRole v p) : u = v := by
  apply BitVec.eq_of_getLsbD_eq
  intro i hi
  have h0 := h .d4
  have h1 := h .d5
  have h2 := h .d6
  have h3 := h .d7
  have h4 := h .rs
  have h5 := h .e
  interval_cases i <;> assumption

theorem setRole_comm (v : RoleBits) {p q : Role} (a b : Bool) (h : p ≠ q) :
    setRole (setRole v p a) q b = setRole (setRole v q b) p a := by
  apply roleBits_ext
  intro r
  simp only [getRole_setRole]
  split <;> split <;> simp_all

@[simp] theorem setRole_setRole (v : RoleBits) (p : Role) (a b : Bool) :
    setRole (setRole v p a) p b = setRole v p b := by
  apply roleBits_ext
  intro r
  simp only [getRole_setRole]
  split <;> rfl

/-- Clearing a bit of zero leaves zero. -/
@[simp] theorem setRole_zero_false (p : Role) : setRole 0#6 p false = 0#6 := by
  cases p <;> decide

end Sys2Proof.Machine
end

