-- ==== Sys2Proof/Laws/Memory.lean ====
section
/-! SUPPORT. The laws of the string space (spec/20_memory.md R52): a read after a write, and that every operation keeps
the canonical form. -/

namespace Sys2Proof.Machine.Memory

@[simp] theorem lookup_nil (a : Nat) : lookup [] a = unlisted := rfl

theorem lookup_cons (k : Nat) (v : Byte) (rest : Memory) (a : Nat) :
    lookup ((k, v) :: rest) a = if k = a then v else lookup rest a := rfl

/-- Below a well-formed list's first address every address is unlisted. -/
theorem lookup_below {m : Memory} {lo a : Nat} (h : wfFrom lo m = true) (ha : a < lo) :
    lookup m a = unlisted := by
  induction m generalizing lo with
  | nil => rfl
  | cons c rest ih =>
    obtain ⟨k, v⟩ := c
    simp only [wfFrom, Bool.and_eq_true, decide_eq_true_eq] at h
    rw [lookup_cons, if_neg (by omega)]
    exact ih h.2 (by omega)

theorem wfFrom_mono {m : Memory} {lo lo' : Nat} (h : wfFrom lo m = true) (hl : lo' ≤ lo) :
    wfFrom lo' m = true := by
  cases m with
  | nil => rfl
  | cons c rest =>
    obtain ⟨k, v⟩ := c
    simp only [wfFrom, Bool.and_eq_true, decide_eq_true_eq] at h ⊢
    exact ⟨⟨⟨by omega, h.1.1.2⟩, h.1.2⟩, h.2⟩

theorem lookup_put {m : Memory} {lo a : Nat} (b : Byte) (a' : Nat) (h : wfFrom lo m = true) (ha : a < lo) :
    lookup (put a b m) a' = if a' = a then b else lookup m a' := by
  unfold put
  by_cases e : a' = a
  · subst e
    split
    · next hb => simp [hb, lookup_below h ha]
    · simp [lookup_cons]
  · have e' : ¬ a = a' := fun h => e h.symm
    split
    · simp
    · simp [lookup_cons, e']

theorem wfFrom_put {m : Memory} {lo a : Nat} (b : Byte) (h : wfFrom (a + 1) m = true) (hlo : lo ≤ a)
    (ha : a < 65536) : wfFrom lo (put a b m) = true := by
  unfold put
  split
  · exact wfFrom_mono h (by omega)
  · next hb => simp [wfFrom, hlo, ha, hb, h]

/-- A read after a numeric write. -/
theorem lookup_insert {m : Memory} {lo : Nat} (a : Nat) (b : Byte) (a' : Nat) (h : wfFrom lo m = true) :
    lookup (insert m a b) a' = if a' = a then b else lookup m a' := by
  induction m generalizing lo with
  | nil => exact lookup_put (m := []) (lo := a + 1) b a' rfl (by omega)
  | cons c rest ih =>
    obtain ⟨k, v⟩ := c
    have h' := h
    simp only [wfFrom, Bool.and_eq_true, decide_eq_true_eq] at h'
    unfold insert
    split
    · next hlt =>
      exact lookup_put b a' (lo := a + 1) (by
        simp only [wfFrom, Bool.and_eq_true, decide_eq_true_eq]
        exact ⟨⟨⟨by omega, h'.1.1.2⟩, h'.1.2⟩, h'.2⟩) (by omega)
    · split
      · next hge heq =>
        subst heq
        rw [lookup_put b a' h'.2 (by omega), lookup_cons]
        by_cases e : a' = a
        · simp [e]
        · rw [if_neg e, if_neg e, if_neg (fun h => e h.symm)]
      · next hge hne =>
        rw [lookup_cons, ih h'.2, lookup_cons]
        by_cases e : k = a'
        · subst e
          rw [if_pos rfl, if_pos rfl, if_neg (fun h => hne h.symm)]
        · rw [if_neg e, if_neg e]

theorem wfFrom_insert {m : Memory} {lo : Nat} (a : Nat) (b : Byte) (h : wfFrom lo m = true) (hlo : lo ≤ a)
    (ha : a < 65536) : wfFrom lo (insert m a b) = true := by
  induction m generalizing lo with
  | nil => exact wfFrom_put b rfl hlo ha
  | cons c rest ih =>
    obtain ⟨k, v⟩ := c
    have h' := h
    simp only [wfFrom, Bool.and_eq_true, decide_eq_true_eq] at h'
    unfold insert
    split
    · next hlt =>
      exact wfFrom_put b (by
        simp only [wfFrom, Bool.and_eq_true, decide_eq_true_eq]
        exact ⟨⟨⟨by omega, h'.1.1.2⟩, h'.1.2⟩, h'.2⟩) hlo ha
    · split
      · next hge heq =>
        subst heq
        exact wfFrom_put b h'.2 hlo ha
      · next hge hne =>
        simp only [wfFrom, Bool.and_eq_true, decide_eq_true_eq]
        exact ⟨h'.1, ih h'.2 (by omega)⟩

/-- The empty list is in canonical form. -/
@[simp] theorem wf_nil : wf [] = true := rfl

/-- A read after a write: the written byte there, the old byte elsewhere. -/
theorem read_write {m : Memory} (h : m.wf = true) (a : Addr) (b : Byte) (a' : Addr) :
    (m.write a b).read a' = if a' = a then b else m.read a' := by
  unfold read write
  rw [lookup_insert _ _ _ h]
  simp [BitVec.toNat_inj]

/-- Every host store keeps the canonical form. -/
theorem wf_write {m : Memory} (h : m.wf = true) (a : Addr) (b : Byte) : (m.write a b).wf = true :=
  wfFrom_insert _ _ h (Nat.zero_le _) a.isLt

theorem wf_writeAll {m : Memory} (h : m.wf = true) (stores : List (Addr × Byte)) :
    (m.writeAll stores).wf = true := by
  induction stores generalizing m with
  | nil => exact h
  | cons st rest ih => exact ih (wf_write h st.1 st.2)

theorem wf_writeBytes {m : Memory} (h : m.wf = true) (a : Addr) (bs : List Byte) :
    (m.writeBytes a bs).wf = true := by
  induction bs generalizing m a with
  | nil => exact h
  | cons b rest ih => exact ih (wf_write h a b) (a + 1)

@[simp] theorem writeAll_nil (m : Memory) : m.writeAll [] = m := rfl

end Sys2Proof.Machine.Memory
end

