-- ==== Sys2Proof/Laws/State.lean ====
section
/-! SUPPORT. One lemma per field per update of State: what each named operation changes, and that it changes nothing
else. -/

namespace Sys2Proof.Machine

/-! Taking the tick's input changes the inputs and the string space only. -/

@[simp] theorem takeInput_lat (s : State) : (s.takeInput).lat = s.lat := rfl
@[simp] theorem takeInput_dir (s : State) : (s.takeInput).dir = s.dir := rfl
@[simp] theorem takeInput_dly (s : State) : (s.takeInput).dly = s.dly := rfl
@[simp] theorem takeInput_busy (s : State) : (s.takeInput).busy = s.busy := rfl
@[simp] theorem takeInput_initd (s : State) : (s.takeInput).initd = s.initd := rfl
@[simp] theorem takeInput_str (s : State) : (s.takeInput).str = s.str := rfl
@[simp] theorem takeInput_opc (s : State) : (s.takeInput).opc = s.opc := rfl
@[simp] theorem takeInput_arg0 (s : State) : (s.takeInput).arg0 = s.arg0 := rfl
@[simp] theorem takeInput_arg1 (s : State) : (s.takeInput).arg1 = s.arg1 := rfl
@[simp] theorem takeInput_sp (s : State) : (s.takeInput).sp = s.sp := rfl
@[simp] theorem takeInput_pend (s : State) : (s.takeInput).pend = s.pend := rfl
@[simp] theorem takeInput_tr (s : State) : (s.takeInput).tr = s.tr := rfl
@[simp] theorem takeInput_cfg (s : State) : (s.takeInput).cfg = s.cfg := rfl
@[simp] theorem takeInput_mem (s : State) : (s.takeInput).mem = s.mem.writeAll s.input.stores := rfl
@[simp] theorem takeInput_inputs (s : State) : (s.takeInput).inputs = s.inputs.tail := rfl

/-! `DIR_OUT(p)` changes DIR only (R101). -/

@[simp] theorem applyMicro_dirOut_lat (p : Role) (s : State) : (applyMicro (.dirOut p) s).lat = s.lat := rfl
@[simp] theorem applyMicro_dirOut_dir (p : Role) (s : State) : (applyMicro (.dirOut p) s).dir = setRole s.dir p false := rfl
@[simp] theorem applyMicro_dirOut_dly (p : Role) (s : State) : (applyMicro (.dirOut p) s).dly = s.dly := rfl
@[simp] theorem applyMicro_dirOut_busy (p : Role) (s : State) : (applyMicro (.dirOut p) s).busy = s.busy := rfl
@[simp] theorem applyMicro_dirOut_initd (p : Role) (s : State) : (applyMicro (.dirOut p) s).initd = s.initd := rfl
@[simp] theorem applyMicro_dirOut_str (p : Role) (s : State) : (applyMicro (.dirOut p) s).str = s.str := rfl
@[simp] theorem applyMicro_dirOut_opc (p : Role) (s : State) : (applyMicro (.dirOut p) s).opc = s.opc := rfl
@[simp] theorem applyMicro_dirOut_arg0 (p : Role) (s : State) : (applyMicro (.dirOut p) s).arg0 = s.arg0 := rfl
@[simp] theorem applyMicro_dirOut_arg1 (p : Role) (s : State) : (applyMicro (.dirOut p) s).arg1 = s.arg1 := rfl
@[simp] theorem applyMicro_dirOut_sp (p : Role) (s : State) : (applyMicro (.dirOut p) s).sp = s.sp := rfl
@[simp] theorem applyMicro_dirOut_pend (p : Role) (s : State) : (applyMicro (.dirOut p) s).pend = s.pend := rfl
@[simp] theorem applyMicro_dirOut_tr (p : Role) (s : State) : (applyMicro (.dirOut p) s).tr = s.tr := rfl
@[simp] theorem applyMicro_dirOut_cfg (p : Role) (s : State) : (applyMicro (.dirOut p) s).cfg = s.cfg := rfl
@[simp] theorem applyMicro_dirOut_mem (p : Role) (s : State) : (applyMicro (.dirOut p) s).mem = s.mem := rfl
@[simp] theorem applyMicro_dirOut_inputs (p : Role) (s : State) : (applyMicro (.dirOut p) s).inputs = s.inputs := rfl

/-! `PIN(p, v)` changes LAT only (R102). -/

@[simp] theorem applyMicro_pin_lat (p : Role) (v : Bool) (s : State) : (applyMicro (.pin p v) s).lat = setRole s.lat p v := rfl
@[simp] theorem applyMicro_pin_dir (p : Role) (v : Bool) (s : State) : (applyMicro (.pin p v) s).dir = s.dir := rfl
@[simp] theorem applyMicro_pin_dly (p : Role) (v : Bool) (s : State) : (applyMicro (.pin p v) s).dly = s.dly := rfl
@[simp] theorem applyMicro_pin_busy (p : Role) (v : Bool) (s : State) : (applyMicro (.pin p v) s).busy = s.busy := rfl
@[simp] theorem applyMicro_pin_initd (p : Role) (v : Bool) (s : State) : (applyMicro (.pin p v) s).initd = s.initd := rfl
@[simp] theorem applyMicro_pin_str (p : Role) (v : Bool) (s : State) : (applyMicro (.pin p v) s).str = s.str := rfl
@[simp] theorem applyMicro_pin_opc (p : Role) (v : Bool) (s : State) : (applyMicro (.pin p v) s).opc = s.opc := rfl
@[simp] theorem applyMicro_pin_arg0 (p : Role) (v : Bool) (s : State) : (applyMicro (.pin p v) s).arg0 = s.arg0 := rfl
@[simp] theorem applyMicro_pin_arg1 (p : Role) (v : Bool) (s : State) : (applyMicro (.pin p v) s).arg1 = s.arg1 := rfl
@[simp] theorem applyMicro_pin_sp (p : Role) (v : Bool) (s : State) : (applyMicro (.pin p v) s).sp = s.sp := rfl
@[simp] theorem applyMicro_pin_pend (p : Role) (v : Bool) (s : State) : (applyMicro (.pin p v) s).pend = s.pend := rfl
@[simp] theorem applyMicro_pin_tr (p : Role) (v : Bool) (s : State) : (applyMicro (.pin p v) s).tr = s.tr := rfl
@[simp] theorem applyMicro_pin_cfg (p : Role) (v : Bool) (s : State) : (applyMicro (.pin p v) s).cfg = s.cfg := rfl
@[simp] theorem applyMicro_pin_mem (p : Role) (v : Bool) (s : State) : (applyMicro (.pin p v) s).mem = s.mem := rfl
@[simp] theorem applyMicro_pin_inputs (p : Role) (v : Bool) (s : State) : (applyMicro (.pin p v) s).inputs = s.inputs := rfl

/-! `DLY(n)` changes DLY only (R103). -/

@[simp] theorem applyMicro_dly_lat (n : Nat) (s : State) : (applyMicro (.dly n) s).lat = s.lat := rfl
@[simp] theorem applyMicro_dly_dir (n : Nat) (s : State) : (applyMicro (.dly n) s).dir = s.dir := rfl
@[simp] theorem applyMicro_dly_dly (n : Nat) (s : State) : (applyMicro (.dly n) s).dly = n := rfl
@[simp] theorem applyMicro_dly_busy (n : Nat) (s : State) : (applyMicro (.dly n) s).busy = s.busy := rfl
@[simp] theorem applyMicro_dly_initd (n : Nat) (s : State) : (applyMicro (.dly n) s).initd = s.initd := rfl
@[simp] theorem applyMicro_dly_str (n : Nat) (s : State) : (applyMicro (.dly n) s).str = s.str := rfl
@[simp] theorem applyMicro_dly_opc (n : Nat) (s : State) : (applyMicro (.dly n) s).opc = s.opc := rfl
@[simp] theorem applyMicro_dly_arg0 (n : Nat) (s : State) : (applyMicro (.dly n) s).arg0 = s.arg0 := rfl
@[simp] theorem applyMicro_dly_arg1 (n : Nat) (s : State) : (applyMicro (.dly n) s).arg1 = s.arg1 := rfl
@[simp] theorem applyMicro_dly_sp (n : Nat) (s : State) : (applyMicro (.dly n) s).sp = s.sp := rfl
@[simp] theorem applyMicro_dly_pend (n : Nat) (s : State) : (applyMicro (.dly n) s).pend = s.pend := rfl
@[simp] theorem applyMicro_dly_tr (n : Nat) (s : State) : (applyMicro (.dly n) s).tr = s.tr := rfl
@[simp] theorem applyMicro_dly_cfg (n : Nat) (s : State) : (applyMicro (.dly n) s).cfg = s.cfg := rfl
@[simp] theorem applyMicro_dly_mem (n : Nat) (s : State) : (applyMicro (.dly n) s).mem = s.mem := rfl
@[simp] theorem applyMicro_dly_inputs (n : Nat) (s : State) : (applyMicro (.dly n) s).inputs = s.inputs := rfl

/-! Latching the command word changes OPC, ARG0 and ARG1 only (R71). -/

@[simp] theorem latchWord_lat (i : Instr) (s : State) : (latchWord i s).lat = s.lat := rfl
@[simp] theorem latchWord_dir (i : Instr) (s : State) : (latchWord i s).dir = s.dir := rfl
@[simp] theorem latchWord_dly (i : Instr) (s : State) : (latchWord i s).dly = s.dly := rfl
@[simp] theorem latchWord_busy (i : Instr) (s : State) : (latchWord i s).busy = s.busy := rfl
@[simp] theorem latchWord_initd (i : Instr) (s : State) : (latchWord i s).initd = s.initd := rfl
@[simp] theorem latchWord_str (i : Instr) (s : State) : (latchWord i s).str = s.str := rfl
@[simp] theorem latchWord_opc (i : Instr) (s : State) : (latchWord i s).opc = i.opcode := rfl
@[simp] theorem latchWord_arg0 (i : Instr) (s : State) : (latchWord i s).arg0 = i.operandBytes.a0 := rfl
@[simp] theorem latchWord_arg1 (i : Instr) (s : State) : (latchWord i s).arg1 = i.operandBytes.a1 := rfl
@[simp] theorem latchWord_sp (i : Instr) (s : State) : (latchWord i s).sp = s.sp := rfl
@[simp] theorem latchWord_pend (i : Instr) (s : State) : (latchWord i s).pend = s.pend := rfl
@[simp] theorem latchWord_tr (i : Instr) (s : State) : (latchWord i s).tr = s.tr := rfl
@[simp] theorem latchWord_cfg (i : Instr) (s : State) : (latchWord i s).cfg = s.cfg := rfl
@[simp] theorem latchWord_mem (i : Instr) (s : State) : (latchWord i s).mem = s.mem := rfl
@[simp] theorem latchWord_inputs (i : Instr) (s : State) : (latchWord i s).inputs = s.inputs := rfl

/-! The flags of acceptance. -/

@[simp] theorem acceptFlags_lat (b : Bool) (s : State) : (acceptFlags b s).lat = s.lat := rfl
@[simp] theorem acceptFlags_dir (b : Bool) (s : State) : (acceptFlags b s).dir = s.dir := rfl
@[simp] theorem acceptFlags_dly (b : Bool) (s : State) : (acceptFlags b s).dly = s.dly := rfl
@[simp] theorem acceptFlags_busy (b : Bool) (s : State) : (acceptFlags b s).busy = true := rfl
@[simp] theorem acceptFlags_initd (b : Bool) (s : State) : (acceptFlags b s).initd = s.initd := rfl
@[simp] theorem acceptFlags_str (b : Bool) (s : State) : (acceptFlags b s).str = b := rfl
@[simp] theorem acceptFlags_opc (b : Bool) (s : State) : (acceptFlags b s).opc = s.opc := rfl
@[simp] theorem acceptFlags_arg0 (b : Bool) (s : State) : (acceptFlags b s).arg0 = s.arg0 := rfl
@[simp] theorem acceptFlags_arg1 (b : Bool) (s : State) : (acceptFlags b s).arg1 = s.arg1 := rfl
@[simp] theorem acceptFlags_sp (b : Bool) (s : State) : (acceptFlags b s).sp = s.sp := rfl
@[simp] theorem acceptFlags_pend (b : Bool) (s : State) : (acceptFlags b s).pend = s.pend := rfl
@[simp] theorem acceptFlags_tr (b : Bool) (s : State) : (acceptFlags b s).tr = s.tr := rfl
@[simp] theorem acceptFlags_cfg (b : Bool) (s : State) : (acceptFlags b s).cfg = s.cfg := rfl
@[simp] theorem acceptFlags_mem (b : Bool) (s : State) : (acceptFlags b s).mem = s.mem := rfl
@[simp] theorem acceptFlags_inputs (b : Bool) (s : State) : (acceptFlags b s).inputs = s.inputs := rfl

/-! The delay step changes DLY only (R105). -/

@[simp] theorem delayStep_lat (s : State) : (delayStep s).lat = s.lat := rfl
@[simp] theorem delayStep_dir (s : State) : (delayStep s).dir = s.dir := rfl
@[simp] theorem delayStep_dly (s : State) : (delayStep s).dly = s.dly - 1 := rfl
@[simp] theorem delayStep_busy (s : State) : (delayStep s).busy = s.busy := rfl
@[simp] theorem delayStep_initd (s : State) : (delayStep s).initd = s.initd := rfl
@[simp] theorem delayStep_str (s : State) : (delayStep s).str = s.str := rfl
@[simp] theorem delayStep_opc (s : State) : (delayStep s).opc = s.opc := rfl
@[simp] theorem delayStep_arg0 (s : State) : (delayStep s).arg0 = s.arg0 := rfl
@[simp] theorem delayStep_arg1 (s : State) : (delayStep s).arg1 = s.arg1 := rfl
@[simp] theorem delayStep_sp (s : State) : (delayStep s).sp = s.sp := rfl
@[simp] theorem delayStep_pend (s : State) : (delayStep s).pend = s.pend := rfl
@[simp] theorem delayStep_tr (s : State) : (delayStep s).tr = s.tr := rfl
@[simp] theorem delayStep_cfg (s : State) : (delayStep s).cfg = s.cfg := rfl
@[simp] theorem delayStep_mem (s : State) : (delayStep s).mem = s.mem := rfl
@[simp] theorem delayStep_inputs (s : State) : (delayStep s).inputs = s.inputs := rfl

/-! The completion step changes BUSY and INITD only (R108). -/

@[simp] theorem completionStep_lat (s : State) : (completionStep s).lat = s.lat := rfl
@[simp] theorem completionStep_dir (s : State) : (completionStep s).dir = s.dir := rfl
@[simp] theorem completionStep_dly (s : State) : (completionStep s).dly = s.dly := rfl
@[simp] theorem completionStep_busy (s : State) : (completionStep s).busy = false := rfl
@[simp] theorem completionStep_initd (s : State) : (completionStep s).initd = (s.initd || s.opc == 0) := rfl
@[simp] theorem completionStep_str (s : State) : (completionStep s).str = s.str := rfl
@[simp] theorem completionStep_opc (s : State) : (completionStep s).opc = s.opc := rfl
@[simp] theorem completionStep_arg0 (s : State) : (completionStep s).arg0 = s.arg0 := rfl
@[simp] theorem completionStep_arg1 (s : State) : (completionStep s).arg1 = s.arg1 := rfl
@[simp] theorem completionStep_sp (s : State) : (completionStep s).sp = s.sp := rfl
@[simp] theorem completionStep_pend (s : State) : (completionStep s).pend = s.pend := rfl
@[simp] theorem completionStep_tr (s : State) : (completionStep s).tr = s.tr := rfl
@[simp] theorem completionStep_cfg (s : State) : (completionStep s).cfg = s.cfg := rfl
@[simp] theorem completionStep_mem (s : State) : (completionStep s).mem = s.mem := rfl
@[simp] theorem completionStep_inputs (s : State) : (completionStep s).inputs = s.inputs := rfl

/-! Reset leaves the configuration, the string space and the inputs, and nothing else (R220, R224). -/

@[simp] theorem resetStep_lat (s : State) : (resetStep s).lat = s.cfg.latReset := rfl
@[simp] theorem resetStep_dir (s : State) : (resetStep s).dir = 0b111111 := rfl
@[simp] theorem resetStep_dly (s : State) : (resetStep s).dly = 0 := rfl
@[simp] theorem resetStep_busy (s : State) : (resetStep s).busy = false := rfl
@[simp] theorem resetStep_initd (s : State) : (resetStep s).initd = false := rfl
@[simp] theorem resetStep_str (s : State) : (resetStep s).str = false := rfl
@[simp] theorem resetStep_opc (s : State) : (resetStep s).opc = 0 := rfl
@[simp] theorem resetStep_arg0 (s : State) : (resetStep s).arg0 = 0 := rfl
@[simp] theorem resetStep_arg1 (s : State) : (resetStep s).arg1 = 0 := rfl
@[simp] theorem resetStep_sp (s : State) : (resetStep s).sp = 0 := rfl
@[simp] theorem resetStep_pend (s : State) : (resetStep s).pend = [] := rfl
@[simp] theorem resetStep_tr (s : State) : (resetStep s).tr = [] := rfl
@[simp] theorem resetStep_cfg (s : State) : (resetStep s).cfg = s.cfg := rfl
@[simp] theorem resetStep_mem (s : State) : (resetStep s).mem = s.mem := rfl
@[simp] theorem resetStep_inputs (s : State) : (resetStep s).inputs = s.inputs := rfl

/-! Taking the inputs of k ticks changes the inputs only. -/

@[simp] theorem dropInputs_lat (k : Nat) (s : State) : (s.dropInputs k).lat = s.lat := rfl
@[simp] theorem dropInputs_dir (k : Nat) (s : State) : (s.dropInputs k).dir = s.dir := rfl
@[simp] theorem dropInputs_dly (k : Nat) (s : State) : (s.dropInputs k).dly = s.dly := rfl
@[simp] theorem dropInputs_busy (k : Nat) (s : State) : (s.dropInputs k).busy = s.busy := rfl
@[simp] theorem dropInputs_initd (k : Nat) (s : State) : (s.dropInputs k).initd = s.initd := rfl
@[simp] theorem dropInputs_str (k : Nat) (s : State) : (s.dropInputs k).str = s.str := rfl
@[simp] theorem dropInputs_opc (k : Nat) (s : State) : (s.dropInputs k).opc = s.opc := rfl
@[simp] theorem dropInputs_arg0 (k : Nat) (s : State) : (s.dropInputs k).arg0 = s.arg0 := rfl
@[simp] theorem dropInputs_arg1 (k : Nat) (s : State) : (s.dropInputs k).arg1 = s.arg1 := rfl
@[simp] theorem dropInputs_sp (k : Nat) (s : State) : (s.dropInputs k).sp = s.sp := rfl
@[simp] theorem dropInputs_pend (k : Nat) (s : State) : (s.dropInputs k).pend = s.pend := rfl
@[simp] theorem dropInputs_tr (k : Nat) (s : State) : (s.dropInputs k).tr = s.tr := rfl
@[simp] theorem dropInputs_cfg (k : Nat) (s : State) : (s.dropInputs k).cfg = s.cfg := rfl
@[simp] theorem dropInputs_mem (k : Nat) (s : State) : (s.dropInputs k).mem = s.mem := rfl
@[simp] theorem dropInputs_inputs (k : Nat) (s : State) : (s.dropInputs k).inputs = s.inputs.drop k := rfl

/-! A micro-op changes LAT, DIR and DLY as `latStep`, `dirStep` say, and nothing else; the execute step adds PEND and
TR (R106). -/

@[simp] theorem applyMicro_lat (m : MicroOp) (s : State) : (applyMicro m s).lat = latStep s.lat m := by cases m <;> rfl
@[simp] theorem applyMicro_dir (m : MicroOp) (s : State) : (applyMicro m s).dir = dirStep s.dir m := by cases m <;> rfl
@[simp] theorem applyMicro_busy (m : MicroOp) (s : State) : (applyMicro m s).busy = s.busy := by cases m <;> rfl
@[simp] theorem applyMicro_initd (m : MicroOp) (s : State) : (applyMicro m s).initd = s.initd := by cases m <;> rfl
@[simp] theorem applyMicro_str (m : MicroOp) (s : State) : (applyMicro m s).str = s.str := by cases m <;> rfl
@[simp] theorem applyMicro_opc (m : MicroOp) (s : State) : (applyMicro m s).opc = s.opc := by cases m <;> rfl
@[simp] theorem applyMicro_arg0 (m : MicroOp) (s : State) : (applyMicro m s).arg0 = s.arg0 := by cases m <;> rfl
@[simp] theorem applyMicro_arg1 (m : MicroOp) (s : State) : (applyMicro m s).arg1 = s.arg1 := by cases m <;> rfl
@[simp] theorem applyMicro_sp (m : MicroOp) (s : State) : (applyMicro m s).sp = s.sp := by cases m <;> rfl
@[simp] theorem applyMicro_pend (m : MicroOp) (s : State) : (applyMicro m s).pend = s.pend := by cases m <;> rfl
@[simp] theorem applyMicro_tr (m : MicroOp) (s : State) : (applyMicro m s).tr = s.tr := by cases m <;> rfl
@[simp] theorem applyMicro_cfg (m : MicroOp) (s : State) : (applyMicro m s).cfg = s.cfg := by cases m <;> rfl
@[simp] theorem applyMicro_mem (m : MicroOp) (s : State) : (applyMicro m s).mem = s.mem := by cases m <;> rfl
@[simp] theorem applyMicro_inputs (m : MicroOp) (s : State) : (applyMicro m s).inputs = s.inputs := by cases m <;> rfl

@[simp] theorem executeStep_lat (m : MicroOp) (rest : List MicroOp) (s : State) :
    (executeStep m rest s).lat = latStep s.lat m := by cases m <;> rfl
@[simp] theorem executeStep_dir (m : MicroOp) (rest : List MicroOp) (s : State) :
    (executeStep m rest s).dir = dirStep s.dir m := by cases m <;> rfl
@[simp] theorem executeStep_busy (m : MicroOp) (rest : List MicroOp) (s : State) :
    (executeStep m rest s).busy = s.busy := by cases m <;> rfl
@[simp] theorem executeStep_initd (m : MicroOp) (rest : List MicroOp) (s : State) :
    (executeStep m rest s).initd = s.initd := by cases m <;> rfl
@[simp] theorem executeStep_str (m : MicroOp) (rest : List MicroOp) (s : State) :
    (executeStep m rest s).str = s.str := by cases m <;> rfl
@[simp] theorem executeStep_opc (m : MicroOp) (rest : List MicroOp) (s : State) :
    (executeStep m rest s).opc = s.opc := by cases m <;> rfl
@[simp] theorem executeStep_arg0 (m : MicroOp) (rest : List MicroOp) (s : State) :
    (executeStep m rest s).arg0 = s.arg0 := by cases m <;> rfl
@[simp] theorem executeStep_arg1 (m : MicroOp) (rest : List MicroOp) (s : State) :
    (executeStep m rest s).arg1 = s.arg1 := by cases m <;> rfl
@[simp] theorem executeStep_sp (m : MicroOp) (rest : List MicroOp) (s : State) :
    (executeStep m rest s).sp = s.sp := by cases m <;> rfl
@[simp] theorem executeStep_pend (m : MicroOp) (rest : List MicroOp) (s : State) :
    (executeStep m rest s).pend = rest := by cases m <;> rfl
@[simp] theorem executeStep_tr (m : MicroOp) (rest : List MicroOp) (s : State) :
    (executeStep m rest s).tr = s.tr ++ [m] := by cases m <;> rfl
@[simp] theorem executeStep_cfg (m : MicroOp) (rest : List MicroOp) (s : State) :
    (executeStep m rest s).cfg = s.cfg := by cases m <;> rfl
@[simp] theorem executeStep_mem (m : MicroOp) (rest : List MicroOp) (s : State) :
    (executeStep m rest s).mem = s.mem := by cases m <;> rfl
@[simp] theorem executeStep_inputs (m : MicroOp) (rest : List MicroOp) (s : State) :
    (executeStep m rest s).inputs = s.inputs := by cases m <;> rfl

/-- DLY after an execute step: loaded by `DLY(n)`, else as it was. -/
theorem executeStep_dly (m : MicroOp) (rest : List MicroOp) (s : State) (h : s.dly = 0) :
    (executeStep m rest s).dly = m.delay := by
  cases m with
  | dirOut p => exact h
  | pin p v => exact h
  | dly n => rfl

end Sys2Proof.Machine
end

