-- ==== Sys2Proof/Laws/Ops.lean ====
section
/-! SUPPORT. What each shared operation can do, said once: acceptance (spec/40_sequencer_primitives.md R104), the step
of a busy block (R105 to R108) and the whole step (R109). -/

namespace Sys2Proof.Machine

/-- The state acceptance of an operation with expansion `x` leaves (R104). -/
def acceptedState (i : Instr) (x : List MicroOp) (s : State) : State :=
  { s with opc := i.opcode, arg0 := i.operandBytes.a0, arg1 := i.operandBytes.a1, busy := true, str := false,
           pend := x }

/-- The state acceptance of WSTR leaves (R104). -/
def acceptedString (ptr : Addr) (s : State) : State :=
  { s with opc := 5, arg0 := ptr.extractLsb' 8 8, arg1 := ptr.extractLsb' 0 8, busy := true, str := true,
           sp := ptr, pend := [] }

theorem accept_idle (i : Instr) (x : List MicroOp) {s : State} (h : s.busy = false) :
    accept i x s = .next (acceptedState i x s) := by
  simp [accept, h, acceptedState, acceptFlags, latchWord]

theorem acceptString_idle (ptr : Addr) {s : State} (h : s.busy = false) :
    acceptString (.wstr ptr) ptr s = .next (acceptedString ptr s) := by
  simp [acceptString, h, acceptedString, acceptFlags, latchWord, Instr.opcode, Instr.operandBytes, formatP]

/-- Every meaning but WSTR's is acceptance of its expansion. -/
theorem exec_of_expansion {i : Instr} {s : State} {x : List MicroOp} (h : expansion s.cfg i = some x) :
    exec i s = accept i x s := by
  cases i <;> simp only [expansion, Option.some.injEq, reduceCtorEq] at h <;> subst h <;> rfl

/-- An operation without an expansion of its own is WSTR. -/
theorem expansion_eq_none {cfg : Config} {i : Instr} (h : expansion cfg i = none) : ∃ ptr, i = .wstr ptr := by
  cases i <;> simp [expansion] at h ⊢

/-- An operation with an expansion is not WSTR. -/
theorem not_wstr_of_expansion {cfg : Config} {i : Instr} {x : List MicroOp} (h : expansion cfg i = some x)
    (ptr : Addr) : i ≠ .wstr ptr := by
  rintro rfl
  simp [expansion] at h

/-- What a meaning can answer: acceptance in an idle block, by the operation's kind. -/
inductive ExecCase (i : Instr) (s t : State) : Prop where
  | list (x : List MicroOp) (idle : s.busy = false) (hx : expansion s.cfg i = some x)
      (ht : t = acceptedState i x s)
  | string (ptr : Addr) (idle : s.busy = false) (hi : i = .wstr ptr) (ht : t = acceptedString ptr s)

/-- In a busy block no meaning has a next state. -/
theorem exec_busy (i : Instr) {s : State} (h : s.busy = true) : exec i s = .refused .commandWhileBusy := by
  cases hx : expansion s.cfg i with
  | some x => rw [exec_of_expansion hx, accept, h]; rfl
  | none =>
    obtain ⟨ptr, rfl⟩ := expansion_eq_none hx
    simp [exec, execWstr, acceptString, h]

theorem exec_cases {i : Instr} {s t : State} (h : exec i s = .next t) : ExecCase i s t := by
  cases hb : s.busy with
  | true => simp [exec_busy i hb] at h
  | false =>
    cases hx : expansion s.cfg i with
    | some x =>
      rw [exec_of_expansion hx, accept_idle i x hb] at h
      injection h with h
      exact .list x hb hx h.symm
    | none =>
      obtain ⟨ptr, rfl⟩ := expansion_eq_none hx
      rw [exec, execWstr, acceptString_idle ptr hb] at h
      injection h with h
      exact .string ptr hb rfl h.symm

/-- The fetch step on TERM (R107). -/
theorem fetchStep_term (x : Byte → List MicroOp) {s : State} (h : s.mem.read s.sp = s.cfg.term) :
    fetchStep x s = { s with sp := s.sp + 1, str := false } := by simp [fetchStep, h]

/-- The fetch step on a character (R107). -/
theorem fetchStep_char (x : Byte → List MicroOp) {s : State} (h : s.mem.read s.sp ≠ s.cfg.term) :
    fetchStep x s = { s with sp := s.sp + 1, pend := x (s.mem.read s.sp) } := by simp [fetchStep, h]

/-- The completion step of INIT (R108). -/
theorem completionStep_init {s : State} (h : s.opc = 0) :
    completionStep s = { s with busy := false, initd := true } := by
  simp [completionStep, completeFlags, h]

/-- The completion step of any other operation (R108). -/
theorem completionStep_other {s : State} (h : s.opc ≠ 0) : completionStep s = { s with busy := false } := by
  rw [completionStep, completeFlags, beq_eq_false_iff_ne.mpr h, Bool.or_false]

/-- What the step of a busy block can do (R105 to R108). -/
inductive BusyCase (s t : State) : Prop where
  | delay (hd : s.dly ≠ 0) (ht : t = delayStep s)
  | execute (m : MicroOp) (rest : List MicroOp) (hd : s.dly = 0) (hp : s.pend = m :: rest)
      (ht : t = executeStep m rest s)
  | fetch (hd : s.dly = 0) (hp : s.pend = []) (hs : s.str = true) (ht : t = fetchStep (xWchr s.cfg) s)
  | complete (hd : s.dly = 0) (hp : s.pend = []) (hs : s.str = false) (ht : t = completionStep s)

theorem busyStep_delay {s : State} (h : s.dly ≠ 0) : busyStep s = delayStep s := by simp [busyStep, h]

theorem busyStep_execute {s : State} {m : MicroOp} {rest : List MicroOp} (hd : s.dly = 0)
    (hp : s.pend = m :: rest) : busyStep s = executeStep m rest s := by simp [busyStep, hd, hp]

theorem busyStep_fetch {s : State} (hd : s.dly = 0) (hp : s.pend = []) (hs : s.str = true) :
    busyStep s = fetchStep (xWchr s.cfg) s := by simp [busyStep, hd, hp, hs]

theorem busyStep_complete {s : State} (hd : s.dly = 0) (hp : s.pend = []) (hs : s.str = false) :
    busyStep s = completionStep s := by simp [busyStep, hd, hp, hs]

theorem busyStep_cases (s : State) : BusyCase s (busyStep s) := by
  by_cases hd : s.dly = 0
  · cases hp : s.pend with
    | cons m rest => exact .execute m rest hd hp (busyStep_execute hd hp)
    | nil =>
      cases hs : s.str with
      | true => exact .fetch hd hp hs (busyStep_fetch hd hp hs)
      | false => exact .complete hd hp hs (busyStep_complete hd hp hs)
  · exact .delay hd (busyStep_delay hd)

/-- What a step can do (R109, R220): exactly these. -/
inductive StepCase (s t : State) : Prop where
  | reset (hr : s.input.reset = true) (ht : t = resetStep s.takeInput)
  | nothing (hr : s.input.reset = false) (hb : s.busy = false)
      (hv : s.input.cmdValid = false ∨ ∃ why, decode s.cfg.exposeInternal s.input.cmdWord = .ignored why)
      (ht : t = s.takeInput)
  | accept (i : Instr) (hr : s.input.reset = false) (hb : s.busy = false) (hv : s.input.cmdValid = true)
      (hi : decode s.cfg.exposeInternal s.input.cmdWord = .op i) (ht : ExecCase i s.takeInput t)
  | busy (hr : s.input.reset = false) (hb : s.busy = true) (hv : s.input.cmdValid = false)
      (ht : BusyCase s.takeInput t)

theorem step_ok {s t : State} (h : step s = .next t) : s.cfg.ok = true := by
  cases hc : s.cfg.ok with
  | true => rfl
  | false => simp [step, tickOnInput, hc] at h

theorem step_cases {s t : State} (h : step s = .next t) : StepCase s t := by
  have hc := step_ok h
  simp only [step, tickOnInput, hc, if_true, tick, takeInput_busy] at h
  cases hr : s.input.reset with
  | true =>
    simp only [hr, if_true, Host.Outcome.next.injEq] at h
    exact .reset hr h.symm
  | false =>
    simp only [hr, Bool.false_eq_true, if_false] at h
    cases hb : s.busy with
    | true =>
      simp only [hb, if_true] at h
      cases hv : s.input.cmdValid with
      | true => simp [hv] at h
      | false =>
        simp only [hv, Bool.false_eq_true, if_false, Host.Outcome.next.injEq] at h
        exact .busy hr hb hv (h ▸ busyStep_cases _)
    | false =>
      simp only [hb, Bool.false_eq_true, if_false, idleStep, takeInput_cfg] at h
      cases hv : s.input.cmdValid with
      | false =>
        simp only [hv, Bool.false_eq_true, if_false, Host.Outcome.next.injEq] at h
        exact .nothing hr hb (.inl hv) h.symm
      | true =>
        simp only [hv, if_true] at h
        cases hi : decode s.cfg.exposeInternal s.input.cmdWord with
        | op i =>
          simp only [hi] at h
          exact .accept i hr hb hv hi (exec_cases h)
        | ignored why =>
          simp only [hi, Host.Outcome.next.injEq] at h
          exact .nothing hr hb (.inr ⟨why, hi⟩) h.symm

/-- MEM_ADDR carries an address exactly in a tick that fetches, and then it is SP (R107). -/
theorem memAddr_eq_some {s : State} {a : Addr} :
    s.memAddr = some a ↔
      s.input.reset = false ∧ s.busy = true ∧ s.dly = 0 ∧ s.pend = [] ∧ s.str = true ∧ s.sp = a := by
  unfold State.memAddr
  split
  · next h => simp_all
  · next h =>
    simp only [reduceCtorEq, false_iff]
    rintro ⟨h1, h2, h3, h4, h5, -⟩
    exact h (by simp [h1, h2, h3, h4, h5])

/-- Taking the tick's input moves no port of an idle block. -/
theorem ports_takeInput {s : State} (hb : s.busy = false) : s.takeInput.ports = s.ports := by
  have h : s.takeInput.memAddr = s.memAddr := by simp [State.memAddr, hb]
  unfold State.ports
  rw [h]
  rfl

/-! The step, by its conditions. -/

theorem step_of_reset {s : State} (hc : s.cfg.ok = true) (hr : s.input.reset = true) :
    step s = .next (resetStep s.takeInput) := by
  simp [step, tickOnInput, hc, tick, hr]

theorem step_of_busy {s : State} (hc : s.cfg.ok = true) (hr : s.input.reset = false) (hb : s.busy = true)
    (hv : s.input.cmdValid = false) : step s = .next (busyStep s.takeInput) := by
  simp [step, tickOnInput, hc, tick, hr, hb, hv]

theorem step_of_command_while_busy {s : State} (hc : s.cfg.ok = true) (hr : s.input.reset = false)
    (hb : s.busy = true) (hv : s.input.cmdValid = true) : step s = .refused .commandWhileBusy := by
  simp [step, tickOnInput, hc, tick, hr, hb, hv]

theorem step_of_idle {s : State} (hc : s.cfg.ok = true) (hr : s.input.reset = false) (hb : s.busy = false)
    (hv : s.input.cmdValid = false) : step s = .next s.takeInput := by
  simp [step, tickOnInput, hc, tick, hr, hb, hv, idleStep]

theorem step_of_ignored {s : State} {why : IgnoredWord} (hc : s.cfg.ok = true) (hr : s.input.reset = false)
    (hb : s.busy = false) (hi : decode s.cfg.exposeInternal s.input.cmdWord = .ignored why) :
    step s = .next s.takeInput := by
  simp [step, tickOnInput, hc, tick, hr, hb, hi, idleStep]

theorem step_of_op {s : State} {i : Instr} (hc : s.cfg.ok = true) (hr : s.input.reset = false)
    (hb : s.busy = false) (hv : s.input.cmdValid = true)
    (hi : decode s.cfg.exposeInternal s.input.cmdWord = .op i) : step s = exec i s.takeInput := by
  simp [step, tickOnInput, hc, tick, hr, hb, hv, hi, idleStep]

end Sys2Proof.Machine
end

