-- ==== Sys2Proof/Laws/Expand.lean ====
section
/-! SUPPORT. The expansions: their lengths, their delay sums, that their loads fit the counter, that only INIT's holds a
DIR_OUT, and what they leave on E (spec/40_sequencer_primitives.md R115). -/

namespace Sys2Proof.Machine

/-! Lengths and delay sums (R234). -/

@[simp] theorem delaySum_nil : delaySum [] = 0 := rfl

@[simp] theorem delaySum_cons (m : MicroOp) (xs : List MicroOp) : delaySum (m :: xs) = m.delay + delaySum xs := by
  simp [delaySum]

@[simp] theorem delaySum_append (xs ys : List MicroOp) : delaySum (xs ++ ys) = delaySum xs + delaySum ys := by
  simp [delaySum]

@[simp] theorem length_xStrobe (cfg : Config) : (xStrobe cfg).length = 3 := rfl
@[simp] theorem length_xNibble (cfg : Config) (n : Nibble) (c : Bool) : (xNibble cfg n c).length = 8 := rfl
@[simp] theorem length_xByte (cfg : Config) (b : Byte) (c : Bool) : (xByte cfg b c).length = 17 := rfl
@[simp] theorem length_xWcmd (cfg : Config) (b : Byte) : (xWcmd cfg b).length = 17 := rfl
@[simp] theorem length_xWchr (cfg : Config) (b : Byte) : (xWchr cfg b).length = 17 := rfl
@[simp] theorem length_xClear (cfg : Config) : (xClear cfg).length = 18 := rfl
@[simp] theorem length_xSetcur (cfg : Config) (row col : Byte) : (xSetcur cfg row col).length = 17 := rfl

@[simp] theorem delaySum_xStrobe (cfg : Config) : delaySum (xStrobe cfg) = cfg.nPw := by
  simp [xStrobe, MicroOp.delay]

@[simp] theorem delaySum_xNibble (cfg : Config) (n : Nibble) (c : Bool) : delaySum (xNibble cfg n c) = cfg.nPw := by
  simp [xNibble, MicroOp.delay]

@[simp] theorem delaySum_xByte (cfg : Config) (b : Byte) (c : Bool) :
    delaySum (xByte cfg b c) = 2 * cfg.nPw + cfg.nCmd := by
  simp [xByte, MicroOp.delay]; omega

@[simp] theorem delaySum_xWcmd (cfg : Config) (b : Byte) : delaySum (xWcmd cfg b) = 2 * cfg.nPw + cfg.nCmd := by
  simp [xWcmd]

@[simp] theorem delaySum_xWchr (cfg : Config) (b : Byte) : delaySum (xWchr cfg b) = 2 * cfg.nPw + cfg.nCmd := by
  simp [xWchr]

@[simp] theorem delaySum_xClear (cfg : Config) : delaySum (xClear cfg) = 2 * cfg.nPw + cfg.nCmd + cfg.nClr := by
  simp [xClear, MicroOp.delay]

@[simp] theorem delaySum_xSetcur (cfg : Config) (row col : Byte) :
    delaySum (xSetcur cfg row col) = 2 * cfg.nPw + cfg.nCmd := by
  simp [xSetcur]

/-! Folds over a list. -/

@[simp] theorem latAfter_nil (l : RoleBits) : latAfter [] l = l := rfl
@[simp] theorem latAfter_cons (m : MicroOp) (xs : List MicroOp) (l : RoleBits) :
    latAfter (m :: xs) l = latAfter xs (latStep l m) := rfl
@[simp] theorem latAfter_append (xs ys : List MicroOp) (l : RoleBits) :
    latAfter (xs ++ ys) l = latAfter ys (latAfter xs l) := by simp [latAfter]

/-- The latches of the pin history: one value for each prefix of the list, the empty one first (R113). -/
theorem history_latches (t : List MicroOp) (l : RoleBits) :
    (history t l).map Prod.fst = t.inits.map (fun pre => latAfter pre l) := by
  induction t generalizing l with
  | nil => rfl
  | cons m rest ih =>
    have h := ih (latStep l m)
    simp only [history, List.map_cons] at h
    simp [history, historyFrom, Function.comp_def, h]

/-- The spacing of the pin history: the delay of each micro-op, and none before the first (R113). -/
theorem history_delays (t : List MicroOp) (l : RoleBits) :
    (history t l).map Prod.snd = 0 :: t.map MicroOp.delay := by
  have h : ∀ (t : List MicroOp) l, (historyFrom t l).map Prod.snd = t.map MicroOp.delay := by
    intro t
    induction t with
    | nil => intro l; rfl
    | cons m rest ih => intro l; simp [historyFrom, ih]
  simp [history, h]

@[simp] theorem dirAfter_nil (d : RoleBits) : dirAfter [] d = d := rfl
@[simp] theorem dirAfter_cons (m : MicroOp) (xs : List MicroOp) (d : RoleBits) :
    dirAfter (m :: xs) d = dirAfter xs (dirStep d m) := rfl
@[simp] theorem dirAfter_append (xs ys : List MicroOp) (d : RoleBits) :
    dirAfter (xs ++ ys) d = dirAfter ys (dirAfter xs d) := by simp [dirAfter]

/-- A list without DIR_OUT leaves DIR alone. -/
theorem dirAfter_of_no_dirOut {xs : List MicroOp} (h : ∀ p, MicroOp.dirOut p ∉ xs) (d : RoleBits) :
    dirAfter xs d = d := by
  induction xs generalizing d with
  | nil => rfl
  | cons m rest ih =>
    have hr : ∀ p, MicroOp.dirOut p ∉ rest := fun p hp => h p (List.mem_cons_of_mem _ hp)
    cases m with
    | dirOut p => exact absurd (List.mem_cons_self ..) (h p)
    | pin p v => simpa [dirStep] using ih hr d
    | dly n => simpa [dirStep] using ih hr d

/-- From all outputs, all stay outputs. -/
@[simp] theorem dirAfter_zero (xs : List MicroOp) : dirAfter xs 0 = 0 := by
  induction xs with
  | nil => rfl
  | cons m rest ih => cases m <;> simpa [dirStep] using ih

/-! The properties of single lists that a step must know: `Plain` lists hold no DIR_OUT, load only what fits, and leave
E low when it was low. -/

/-- A list that makes no role an output, loads nothing that does not fit `w` bits, and leaves E low (R100, R115). -/
structure Plain (w : Nat) (xs : List MicroOp) : Prop where
  noDir : ∀ p, MicroOp.dirOut p ∉ xs
  fits : ∀ n, MicroOp.dly n ∈ xs → n < 2 ^ w
  eLow : ∀ l, getRole l .e = false → getRole (latAfter xs l) .e = false

theorem Plain.nil (w : Nat) : Plain w [] := ⟨by simp, by simp, fun _ h => h⟩

theorem Plain.append {w : Nat} {xs ys : List MicroOp} (hx : Plain w xs) (hy : Plain w ys) : Plain w (xs ++ ys) where
  noDir p := by simp [hx.noDir p, hy.noDir p]
  fits n h := (List.mem_append.mp h).elim (hx.fits n) (hy.fits n)
  eLow l h := by rw [latAfter_append]; exact hy.eLow _ (hx.eLow _ h)

theorem Plain.dly {w n : Nat} (h : n < 2 ^ w) : Plain w [.dly n] :=
  ⟨by simp, by simpa using h, fun _ h => h⟩

theorem Plain.flatMap {α : Type} {w : Nat} {f : α → List MicroOp} {as : List α} (h : ∀ a ∈ as, Plain w (f a)) :
    Plain w (as.flatMap f) := by
  induction as with
  | nil => exact Plain.nil w
  | cons a rest ih =>
    rw [List.flatMap_cons]
    exact (h a (List.mem_cons_self ..)).append (ih fun b hb => h b (List.mem_cons_of_mem _ hb))

theorem plain_xNibble {cfg : Config} {w : Nat} (h : cfg.nPw < 2 ^ w) (n : Nibble) (c : Bool) :
    Plain w (xNibble cfg n c) where
  noDir p := by simp [xNibble, xStrobe]
  fits k hk := by
    simp [xNibble, xStrobe] at hk
    omega
  eLow l _ := by simp [xNibble, xStrobe, latStep]

theorem plain_xStrobe {cfg : Config} {w : Nat} (h : cfg.nPw < 2 ^ w) : Plain w (xStrobe cfg) where
  noDir p := by simp [xStrobe]
  fits k hk := by
    simp [xStrobe] at hk
    omega
  eLow l _ := by simp [xStrobe, latStep]

/-- What `Config.loadsFit` says, by name. -/
structure Loads (cfg : Config) (w : Nat) : Prop where
  pw : cfg.nPw < 2 ^ w
  cmd : cfg.nCmd < 2 ^ w
  clr : cfg.nClr < 2 ^ w
  seq : ∀ i ∈ cfg.initSeq, i.fits w = true

theorem loads_of_ok {cfg : Config} (h : cfg.ok = true) : Loads cfg cfg.wDly := by
  simp only [Config.ok, Config.loadsFit, Bool.and_eq_true, decide_eq_true_eq, List.all_eq_true] at h
  exact ⟨h.1.1.1.1.1.1.1.1.1, h.1.1.1.1.1.1.1.1.2, h.1.1.1.1.1.1.1.2, h.1.1.1.2⟩

theorem plain_xByte {cfg : Config} {w : Nat} (h : Loads cfg w) (b : Byte) (c : Bool) : Plain w (xByte cfg b c) :=
  ((plain_xNibble h.pw _ c).append (plain_xNibble h.pw _ c)).append (Plain.dly h.cmd)

theorem plain_xClear {cfg : Config} {w : Nat} (h : Loads cfg w) : Plain w (xClear cfg) :=
  (plain_xByte h _ true).append (Plain.dly h.clr)

theorem plain_xItem {cfg : Config} {w : Nat} (h : Loads cfg w) {i : InitItem} (hi : i.fits w = true) :
    Plain w (xItem cfg i) := by
  cases i with
  | nib n => exact plain_xNibble h.pw n true
  | cmd b => exact plain_xByte h b true
  | clr => exact plain_xClear h
  | wait k => exact Plain.dly (by simpa [InitItem.fits] using hi)

theorem plain_initSeq {cfg : Config} {w : Nat} (h : Loads cfg w) : Plain w (cfg.initSeq.flatMap (xItem cfg)) :=
  Plain.flatMap fun i hi => plain_xItem h (h.seq i hi)

/-- Every expansion but INIT's is plain. -/
theorem plain_of_expansion {cfg : Config} {w : Nat} (h : Loads cfg w) {i : Instr} {x : List MicroOp}
    (hx : expansion cfg i = some x) (hi : i.opcode ≠ 0) : Plain w x := by
  cases i <;> simp only [expansion, Option.some.injEq, reduceCtorEq] at hx <;> subst hx
  case init => exact absurd rfl hi
  case strobe => exact plain_xStrobe h.pw
  case nibble n _ c => exact plain_xNibble h.pw n c
  case wcmd b _ => exact plain_xByte h b true
  case wchr b _ => exact plain_xByte h b false
  case clear => exact plain_xClear h
  case setcur row col => exact plain_xByte h _ true

/-- INIT makes all six roles outputs, whatever they were (R130, R133). -/
theorem dirAfter_xInit (cfg : Config) (d : RoleBits) : dirAfter (xInit cfg) d = 0 := by
  have h0 : dirAfter (Role.initOrder.map MicroOp.dirOut) d = 0 := by
    revert d; simp only [Role.initOrder, List.map, dirAfter_cons, dirAfter_nil, dirStep]; decide
  simp only [xInit, dirAfter_append, h0, dirAfter_zero]

/-- After the first two parts of X_INIT every latch is low, whatever it was (R131). -/
theorem latAfter_initHead (l : RoleBits) :
    latAfter (Role.initOrder.map MicroOp.dirOut ++ Role.initOrder.map (fun p => MicroOp.pin p false)) l = 0 := by
  revert l
  simp only [Role.initOrder, List.map, List.cons_append, List.nil_append, latAfter_cons, latAfter_nil, latStep]
  decide

theorem latAfter_xInit (cfg : Config) (l : RoleBits) :
    latAfter (xInit cfg) l = latAfter (cfg.initSeq.flatMap (xItem cfg)) 0 := by
  rw [xInit, latAfter_append, latAfter_initHead]

/-- INIT leaves E low whatever it was (R115 (c)). -/
theorem eLow_xInit {cfg : Config} {w : Nat} (h : Loads cfg w) (l : RoleBits) :
    getRole (latAfter (xInit cfg) l) .e = false := by
  rw [latAfter_xInit]
  exact (plain_initSeq h).eLow 0 (by decide)

theorem fits_xInit {cfg : Config} {w : Nat} (h : Loads cfg w) (n : Nat) (hn : MicroOp.dly n ∈ xInit cfg) :
    n < 2 ^ w := by
  rw [xInit, List.mem_append] at hn
  rcases hn with hn | hn
  · simp [Role.initOrder] at hn
  · exact (plain_initSeq h).fits n hn

/-- Every load of every expansion fits the counter (R100). -/
theorem fits_of_expansion {cfg : Config} {w : Nat} (h : Loads cfg w) {i : Instr} {x : List MicroOp}
    (hx : expansion cfg i = some x) (n : Nat) (hn : MicroOp.dly n ∈ x) : n < 2 ^ w := by
  by_cases hi : i.opcode = 0
  · cases i <;> simp [Instr.opcode] at hi
    simp only [expansion, Option.some.injEq] at hx
    exact fits_xInit h n (hx ▸ hn)
  · exact (plain_of_expansion h hx hi).fits n hn

end Sys2Proof.Machine
end

