-- ==== Sys2Proof/Laws/PerInstr.lean ====
section
/-! SUPPORT. The per-instruction family EncodeFields: the three fields of the word an instruction encodes to
(spec/30_encoding.md R70), one lemma per constructor of Instr. -/

namespace Sys2Proof.Laws.EncodeFields

/-- OP holds the opcode number, A0 and A1 the operand bytes of the instruction's format. -/
def Statement (i : Instr) : Prop :=
  opField (encode i) = 0#5 ++ i.opcode ∧ a0Field (encode i) = i.operandBytes.a0 ∧
    a1Field (encode i) = i.operandBytes.a1

/-- The fields of a word built from an opcode number and two bytes. -/
theorem of_parts (p : BitVec 3) (a b : BitVec 8) :
    opField ((0#5 ++ p) ++ a ++ b : BitVec 24) = 0#5 ++ p ∧ a0Field ((0#5 ++ p) ++ a ++ b : BitVec 24) = a ∧
      a1Field ((0#5 ++ p) ++ a ++ b : BitVec 24) = b := by
  refine ⟨?_, ?_, ?_⟩ <;> apply BitVec.eq_of_getLsbD_eq <;> intro j hj <;>
    simp only [opField, a0Field, a1Field, BitVec.getLsbD_extractLsb', BitVec.getLsbD_append] <;>
    (repeat' split) <;> simp_all <;> first | omega | (congr 1; omega)

theorem init (x : BitVec 16) : Statement (.init x) := of_parts ..
theorem strobe (x : BitVec 16) : Statement (.strobe x) := of_parts ..
theorem nibble (xHigh : BitVec 4) (n : Nibble) (xLow : BitVec 7) (c : Bool) : Statement (.nibble xHigh n xLow c) :=
  of_parts ..
theorem wcmd (b : Byte) (x : BitVec 8) : Statement (.wcmd b x) := of_parts ..
theorem wchr (b : Byte) (x : BitVec 8) : Statement (.wchr b x) := of_parts ..
theorem wstr (ptr : Addr) : Statement (.wstr ptr) := of_parts ..
theorem clear (x : BitVec 16) : Statement (.clear x) := of_parts ..
theorem setcur (row col : Byte) : Statement (.setcur row col) := of_parts ..

end Sys2Proof.Laws.EncodeFields
end

