-- ==== Sys2Proof/Laws/Run.lean ====
section
/-! SUPPORT. Runs of several ticks: splitting a run, what a quiet tick takes, waiting out a delay
(spec/40_sequencer_primitives.md R105, R112) and executing what is pending (R106, R111). -/

namespace Sys2Proof.Machine

@[simp] theorem run_zero (s : State) : run 0 s = .next s := rfl

theorem run_succ (k : Nat) {s t : State} (h : step s = .next t) : run (k + 1) s = run k t := by
  have hs : Sys2Proof.core.step s = .next t := h
  simp only [run, Host.Core.run]
  rw [hs]

theorem run_one {s t : State} (h : step s = .next t) : run 1 s = .next t := by
  rw [run_succ 0 h, run_zero]

/-- A run that goes on starts with a step that does. -/
theorem run_succ_cases {k : Nat} {s u : State} (h : run (k + 1) s = .next u) :
    ∃ t, step s = .next t ∧ run k t = .next u := by
  cases hs : step s with
  | next t => exact ⟨t, rfl, (run_succ k hs).symm.trans h⟩
  | fault r => exact nomatch r
  | refused r =>
    have hc : Sys2Proof.core.step s = .refused r := hs
    simp only [run, Host.Core.run] at h
    rw [hc] at h
    exact nomatch h

theorem run_add {a : Nat} (b : Nat) {s t : State} (h : run a s = .next t) : run (a + b) s = run b t := by
  induction a generalizing s with
  | zero => simp only [run_zero, Host.Outcome.next.injEq] at h; rw [h, Nat.zero_add]
  | succ a ih =>
    obtain ⟨u, hu, hr⟩ := run_succ_cases h
    rw [Nat.succ_add_eq_add_succ, Nat.add_succ, run_succ _ hu, ih hr]

/-! Quiet ticks. -/

theorem TickInput.quiet_iff (i : TickInput) :
    i.quiet = true ↔ i.reset = false ∧ i.cmdValid = false ∧ i.stores = [] := by
  simp [TickInput.quiet, and_assoc]

/-- The next tick of a state whose next ticks are quiet is quiet, also where no input waits. -/
theorem State.quietFor.head {k : Nat} {s : State} (h : s.quietFor (k + 1)) : s.input.quiet = true := by
  unfold State.input
  cases hi : s.inputs with
  | nil => rfl
  | cons i rest => exact h i (by simp [hi])

theorem State.quietFor.tail {k : Nat} {s t : State} (h : s.quietFor (k + 1)) (ht : t.inputs = s.inputs.tail) :
    t.quietFor k := by
  intro i hi
  rw [ht] at hi
  apply h i
  cases hs : s.inputs with
  | nil => simp [hs] at hi
  | cons j rest => rw [hs] at hi; exact List.mem_cons_of_mem _ hi

theorem State.quietFor.mono {k l : Nat} {s : State} (h : s.quietFor k) (hl : l ≤ k) : s.quietFor l := fun i hi =>
  h i ((List.take_subset_take_left _ hl) hi)

theorem State.quietFor.drop {a b : Nat} {s t : State} (h : s.quietFor (a + b)) (ht : t.inputs = s.inputs.drop a) :
    t.quietFor b := by
  intro i hi
  rw [ht] at hi
  apply h i
  rw [List.take_add]
  exact List.mem_append_right _ hi

/-- A quiet tick takes its input and nothing else changes. -/
theorem takeInput_of_quiet {s : State} (h : s.input.quiet = true) : s.takeInput = s.dropInputs 1 := by
  obtain ⟨-, -, hs⟩ := (TickInput.quiet_iff _).mp h
  simp [State.takeInput, State.dropInputs, hs, Memory.writeAll_nil]

theorem step_busy_quiet {s : State} (hc : s.cfg.ok = true) (hb : s.busy = true) (hq : s.input.quiet = true) :
    step s = .next (busyStep (s.dropInputs 1)) := by
  obtain ⟨hr, hv, -⟩ := (TickInput.quiet_iff _).mp hq
  rw [step_of_busy hc hr hb hv, takeInput_of_quiet hq]

/-- While DLY counts, a tick changes DLY and nothing else (R105). -/
theorem run_delay (k : Nat) {s : State} (hc : s.cfg.ok = true) (hb : s.busy = true) (hk : k ≤ s.dly)
    (hq : s.quietFor k) : run k s = .next { s with dly := s.dly - k, inputs := s.inputs.drop k } := by
  induction k generalizing s with
  | zero => simp
  | succ k ih =>
    have hd : (s.dropInputs 1).dly ≠ 0 := by show s.dly ≠ 0; omega
    have hs := step_busy_quiet hc hb hq.head
    rw [busyStep_delay hd] at hs
    rw [run_succ k hs, ih (s := delayStep (s.dropInputs 1)) hc hb (by show k ≤ s.dly - 1; omega)
      (hq.tail (by simp [State.dropInputs]))]
    simp only [delayStep, State.dropInputs, List.drop_drop, Nat.sub_sub]
    rw [Nat.add_comm 1 k]

/-- The state after everything in `xs` has executed, `rest` being still pending. -/
def afterList (xs rest : List MicroOp) (s : State) : State :=
  { s with lat := latAfter xs s.lat, dir := dirAfter xs s.dir, dly := 0, pend := rest, tr := s.tr ++ xs,
           inputs := s.inputs.drop (xs.length + delaySum xs) }

/-- A busy block executes what is pending in order, each micro-op once, in one tick each and the ticks of its delays
(R106, R111, R112). -/
theorem run_pending (xs rest : List MicroOp) {s : State} (hc : s.cfg.ok = true) (hb : s.busy = true)
    (hd : s.dly = 0) (hp : s.pend = xs ++ rest) (hq : s.quietFor (xs.length + delaySum xs)) :
    run (xs.length + delaySum xs) s = .next (afterList xs rest s) := by
  induction xs generalizing s with
  | nil =>
    have hs : afterList [] rest s = s := by
      simp only [List.nil_append] at hp
      cases s
      simp_all [afterList]
    rw [hs]; rfl
  | cons m xs ih =>
    have hlen : (m :: xs).length + delaySum (m :: xs) = 1 + (m.delay + (xs.length + delaySum xs)) := by
      simp only [List.length_cons, delaySum_cons]; omega
    rw [hlen] at hq ⊢
    have hq1 : s.quietFor ((m.delay + (xs.length + delaySum xs)) + 1) := hq.mono (by omega)
    have hs := step_busy_quiet hc hb hq1.head
    rw [busyStep_execute (s := s.dropInputs 1) (m := m) (rest := xs ++ rest) hd hp] at hs
    obtain ⟨t, ht⟩ : ∃ t, t = executeStep m (xs ++ rest) (s.dropInputs 1) := ⟨_, rfl⟩
    rw [← ht] at hs
    have htq : t.quietFor (m.delay + (xs.length + delaySum xs)) :=
      hq1.tail (by simp [ht, State.dropInputs])
    have htd : t.dly = m.delay := by rw [ht]; exact executeStep_dly _ _ _ hd
    have hr := run_delay m.delay (s := t) (by simpa [ht, State.dropInputs] using hc)
      (by simpa [ht, State.dropInputs] using hb) (by omega) (htq.mono (by omega))
    rw [run_add _ (run_one hs), run_add _ hr]
    rw [ih (s := { t with dly := t.dly - m.delay, inputs := t.inputs.drop m.delay })
      (by simpa [ht, State.dropInputs] using hc) (by simpa [ht, State.dropInputs] using hb)
      (by show t.dly - m.delay = 0; omega) (by simp [ht]) (htq.drop rfl)]
    simp only [afterList, Host.Outcome.next.injEq, State.mk.injEq]
    refine ⟨?_, ?_, ?_, ?_, ?_, ?_, ?_, ?_, ?_, ?_, ?_, ?_, ?_, ?_, ?_⟩ <;>
      simp [ht, State.dropInputs, List.drop_drop]
    congr 1; omega

end Sys2Proof.Machine
end

