-- ==== Sys2Proof/Tests/Slice0.lean ====
section
/-! SUPPORT. The model's own tests.  Expected values are those of spec/95_test_vectors.md (V, S and P numbers) or worked
out by hand from the rule named; then one witness for the hypotheses of each obligation that has some. -/

namespace Sys2Proof.Tests

set_option Elab.async false

open Sys2Proof Sys2Proof.Machine

/-- The next state of an outcome, if there is one. -/
def nextOf : Host.Outcome State Fault Refusal → Option State
  | .next s => some s
  | .fault _ => none
  | .refused _ => none

/-- The ground of a refusal, if the outcome is one. -/
def refusalOf : Host.Outcome State Fault Refusal → Option Refusal
  | .next _ => none
  | .fault _ => none
  | .refused r => some r

/-- An outcome whose next state meets a test has such a next state. -/
theorem exists_next {o : Host.Outcome State Fault Refusal} (p : State → Bool)
    (h : (nextOf o).map p = some true) : ∃ t, o = .next t ∧ p t = true := by
  cases o with
  | next t => exact ⟨t, rfl, by simpa [nextOf] using h⟩
  | fault r => simp [nextOf] at h
  | refused r => simp [nextOf] at h

/-- An outcome that is a next state is the next state of some state. -/
theorem exists_next' {o : Host.Outcome State Fault Refusal} (h : (nextOf o).isSome = true) : ∃ t, o = .next t := by
  cases o with
  | next t => exact ⟨t, rfl⟩
  | fault r => simp [nextOf] at h
  | refused r => simp [nextOf] at h

/-- An idle block after INIT: all roles outputs, the log six DIR_OUT. -/
def ready : State := { State.reset with dir := 0, initd := true, tr := Role.initOrder.map .dirOut }

/-- A block with a list pending, DLY 0. -/
def busyWith (pend : List MicroOp) : State := { ready with busy := true, opc := 3, pend := pend }

/-- `s` with a word presented in the next tick. -/
def present (w : CmdWord) (s : State) : State := { s with inputs := TickInput.command w :: s.inputs }

/-- The input of a reset tick, with a command and a store beside it. -/
def resetInput : TickInput := ⟨true, true, 0x044100, [(0x0100, 0x48)]⟩

/-- `ready` with the strap EXPOSE_INTERNAL at a value. -/
def exposed (e : Bool) : State := { ready with cfg := { Config.default with exposeInternal := e } }

/-- The string "Hi" at 0x0100 (P1). -/
def hiSpace : Memory := Memory.writeBytes [] 0x0100 [0x48, 0x69, 0x00]

/-- A WSTR about to fetch the byte at `a`. -/
def fetching (a : Addr) : State := { busyWith [] with str := true, sp := a, mem := hiSpace, opc := 5 }

/-- A block that counts. -/
def delaying (n : Nat) : State := { busyWith [.pin .e false] with dly := n }

/-- A block about to execute `m`, with these directions and latches. -/
def pins (d l : RoleBits) (m : MicroOp) : State := { busyWith [m, .dly 1] with dir := d, lat := l, opc := 0 }

/-- A block in the completion step of the operation with opcode `o`. -/
def completing (o : BitVec 3) : State := { busyWith [] with opc := o }

/-- A block in mid-pulse, a reset tick waiting. -/
def resetting : State := { busyWith [.pin .e false] with dly := 1, lat := 0b101010, inputs := [resetInput] }

/-! Well-formedness and the canonical form: an ill-formed term for each check. -/

theorem test_wf_refuses_strobe : (Instr.strobe 0).wellFormed false = false := by decide +kernel
theorem test_wf_refuses_nibble : (Instr.nibble 0 0xA 0 true).wellFormed false = false := by decide +kernel
theorem test_wf_admits_with_strap :
    (Instr.strobe 0).wellFormed true = true ∧ (Instr.nibble 0 0xA 0 true).wellFormed true = true := by decide +kernel
theorem test_canonical_refuses :
    (Instr.init 1).canonical = false ∧ (Instr.strobe 0x8000).canonical = false ∧
    (Instr.nibble 1 0 0 false).canonical = false ∧ (Instr.nibble 0 0 1 false).canonical = false ∧
    (Instr.wcmd 0x28 0xFF).canonical = false ∧ (Instr.wchr 0x41 1).canonical = false ∧
    (Instr.clear 0x0100).canonical = false := by decide +kernel

/-! The configuration (R5, U11): the default is one, and a broken constraint each is not. -/

theorem test_default_configuration :
    Config.default.ok = true ∧ Config.default.enableCycleOk = true := by decide +kernel
theorem test_config_refuses_loads :
    { Config.default with nPwrOn := 65536 }.ok = false ∧ { Config.default with wDly := 15 }.ok = false ∧
    { Config.default with initSeq := [.wait 65536] }.ok = false := by decide +kernel
theorem test_config_refuses_geometry :
    { Config.default with rowOffset := 0x71 }.ok = false ∧ { Config.default with cols := 3 }.ok = false ∧
    { Config.default with cols := 65 }.ok = false ∧ { Config.default with setAddrBase := 0x81 }.ok = false := by decide +kernel
theorem test_config_refuses_pins :
    { Config.default with pinMap := { Config.default.pinMap with e := ⟨0, 9⟩ } }.ok = false ∧
    { Config.default with pinMap := { Config.default.pinMap with e := ⟨9, 4⟩ } }.ok = false := by decide +kernel
theorem test_config_refuses_timing :
    { Config.default with nClr := 0 }.ok = false ∧ { Config.default with fTick := 0 }.ok = false ∧
    { Config.default with nPw := 0 }.ok = false ∧ { Config.default with nCmd := 36 }.ok = false ∧
    { Config.default with nPwrOn := 39999 }.ok = false ∧ { Config.default with nInit1 := 4099 }.ok = false ∧
    { Config.default with nInit2 := 99 }.ok = false ∧ { Config.default with nClr := 1479 }.ok = false := by decide +kernel
theorem test_bad_configuration_is_refused :
    refusalOf (step { State.reset with cfg := { Config.default with nClr := 0 } }) = some .badConfiguration := by decide +kernel

/-! Decoding: words written out bit by bit from R79's rows, and the vectors of section 2.1. -/

theorem test_decode_init :
    decode false 0b000000000000000000000000#24 = .op (.init 0) ∧
    decode false 0b000000001111111111111111#24 = .op (.init 0xFFFF) := by decide +kernel
theorem test_decode_strobe :
    decode true 0b000000010000000000000000#24 = .op (.strobe 0) ∧
    decode false 0b000000010000000000000000#24 = .ignored .internalNotExposed := by decide +kernel
theorem test_decode_nibble :
    decode true 0b000000100000101000000001#24 = .op (.nibble 0 0xA 0 true) ∧
    decode true 0b000000101111101011111111#24 = .op (.nibble 0xF 0xA 0x7F true) ∧
    decode true 0b000000100000010100000000#24 = .op (.nibble 0 5 0 false) := by decide +kernel
theorem test_decode_wcmd :
    decode false 0b000000110010100000000000#24 = .op (.wcmd 0x28 0) ∧
    decode false 0b000000110010100011111111#24 = .op (.wcmd 0x28 0xFF) := by decide +kernel
theorem test_decode_wchr : decode false 0b000001000100000100000000#24 = .op (.wchr 0x41 0) := by decide +kernel
theorem test_decode_wstr :
    decode false 0b000001010000000100000000#24 = .op (.wstr 0x0100) ∧
    decode false 0b000001011111111111111111#24 = .op (.wstr 0xFFFF) := by decide +kernel
theorem test_decode_clear : decode false 0b000001100000000000000000#24 = .op (.clear 0) := by decide +kernel
theorem test_decode_setcur : decode false 0b000001110000010101100011#24 = .op (.setcur 5 99) := by decide +kernel
theorem test_decode_reserved :
    decode true 0b000010000000000000000000#24 = .ignored .reservedOpcode ∧
    decode true 0b111111110000000000000000#24 = .ignored .reservedOpcode := by decide +kernel
/-- The encoder against the words of P2, P3 and V5. -/
theorem test_encode_words :
    [Instr.init 0, .clear 0, .setcur 1 3, .wchr 0x41 0, .wcmd 0x01 0, .wstr 0x0200, .strobe 0, .nibble 0 0xA 0 true].map
      encode = [0x000000, 0x060000, 0x070103, 0x044100, 0x030100, 0x050200, 0x010000, 0x020A01] := by decide +kernel
theorem test_decode_table_word :
    decodeTableWord 24 0x010000 = some (.strobe 0) ∧ decodeTableWord 24 0x070563 = some (.setcur 5 99) ∧
    decodeTableWord 24 0x080000 = none ∧ decodeTableWord 25 0x1000000 = none := by decide +kernel
/-- A placed word runs as the first thing after reset (every row of the table). -/
theorem test_placed_words_run :
    [0x000000, 0x010000, 0x020A01, 0x032800, 0x044100, 0x050100, 0x060000, 0x070563].map
      (fun w => (nextOf (step (State.reset.withFetchWord 24 w))).map (fun t => (t.opc, t.busy))) =
    [some (0, true), some (1, true), some (2, true), some (3, true), some (4, true), some (5, true), some (6, true),
     some (7, true)] := by decide +kernel

/-! INIT (V40, V42). -/

theorem test_init_first_twelve :
    ((nextOf (exec (.init 0) State.reset)).map (fun t => t.pend.take 12)) =
      some [.dirOut .e, .dirOut .rs, .dirOut .d4, .dirOut .d5, .dirOut .d6, .dirOut .d7, .pin .e false,
        .pin .rs false, .pin .d4 false, .pin .d5 false, .pin .d6 false, .pin .d7 false] := by decide +kernel
theorem test_init_figures :
    (xInit Config.default).length = 118 ∧ ticksOf (xInit Config.default) 0 = 47572 ∧
    (pulses (xInit Config.default) 0b100000).length = 12 ∧ dirAfter (xInit Config.default) 0b111111 = 0 ∧
    latAfter (xInit Config.default) 0b100000 = 0b000001 := by decide +kernel

/-! STROBE (V20, V21, V26). -/

theorem test_strobe_list :
    (nextOf (exec (.strobe 0) ready)).map (fun t => (t.pend, t.opc, t.initd)) =
      some ([.pin .e true, .dly 1, .pin .e false], 1, true) := by decide +kernel
theorem test_strobe_pulses :
    pulses (xStrobe Config.default) 0b000000 = [⟨false, 0x0, 1⟩] ∧
    pulses (xStrobe Config.default) 0b011111 = [⟨true, 0xF, 1⟩] ∧ pulses (xStrobe Config.default) 0b100000 = [] ∧
    latAfter (xStrobe Config.default) 0b100000 = 0b000000 := by decide +kernel

/-! NIBBLE (V22 to V25). -/

theorem test_nibble_list :
    (nextOf (exec (.nibble 0 0xA 0 true) ready)).map (·.pend) =
      some [.pin .d4 false, .pin .d5 true, .pin .d6 false, .pin .d7 true, .pin .rs false, .pin .e true, .dly 1,
        .pin .e false] := by decide +kernel
theorem test_nibble_history :
    history (xNibble Config.default 0xA true) 0 =
      [(0b000000, 0), (0b000000, 0), (0b000010, 0), (0b000010, 0), (0b001010, 0), (0b001010, 0), (0b101010, 0),
       (0b101010, 1), (0b001010, 0)] ∧
    pulses (xNibble Config.default 5 false) 0 = [⟨true, 5, 1⟩] ∧
    latAfter (xNibble Config.default 5 false) 0 = 0b010101 := by decide +kernel

/-! WCMD (V30, V31). -/

theorem test_wcmd_list :
    (nextOf (exec (.wcmd 0xA5 0xFF) ready)).map (fun t => (t.pend, t.arg0, t.arg1)) =
      some ([.pin .d4 false, .pin .d5 true, .pin .d6 false, .pin .d7 true, .pin .rs false, .pin .e true, .dly 1,
        .pin .e false, .pin .d4 true, .pin .d5 false, .pin .d6 true, .pin .d7 false, .pin .rs false, .pin .e true,
        .dly 1, .pin .e false, .dly 40], 0xA5, 0xFF) := by decide +kernel
theorem test_wcmd_pulses :
    pulses (xWcmd Config.default 0x28) 0 = [⟨false, 0x2, 1⟩, ⟨false, 0x8, 1⟩] ∧
    latAfter (xWcmd Config.default 0x28) 0 = 0b001000 ∧ ticksOf (xWcmd Config.default 0x28) 0 = 61 := by decide +kernel

/-! WCHR (V33 to V35). -/

theorem test_wchr_accepts :
    (nextOf (exec (.wchr 0x00 0) ready)).map (fun t => (t.pend.length, t.opc, t.str)) = some (17, 4, false) := by decide +kernel
theorem test_wchr_pulses :
    pulses (xWchr Config.default 0x41) 0 = [⟨true, 0x4, 1⟩, ⟨true, 0x1, 1⟩] ∧
    latAfter (xWchr Config.default 0x41) 0 = 0b010001 ∧
    pulses (xWchr Config.default 0x00) 0 = [⟨true, 0x0, 1⟩, ⟨true, 0x0, 1⟩] := by decide +kernel

/-! WSTR (V37, V38; P1's string). -/

theorem test_wstr_accepts :
    (nextOf (exec (.wstr 0x0100) ready)).map (fun t => (t.sp, t.str, t.pend, t.arg0, t.arg1)) =
      some (0x0100, true, [], 0x01, 0x00) := by decide +kernel
theorem test_wstr_string :
    stringOf 0 hiSpace 0x0100 = some [0x48, 0x69] ∧ stringOf 0 hiSpace 0x0102 = some [] ∧
    stringOf 0 (Memory.writeBytes [] 0xFFFF [0x48, 0x69, 0x00]) 0xFFFF = some [0x48, 0x69] ∧
    pulses (xWstr Config.default [0x48, 0x69]) 0 =
      [⟨true, 0x4, 1⟩, ⟨true, 0x8, 1⟩, ⟨true, 0x6, 1⟩, ⟨true, 0x9, 1⟩] ∧
    ticksOf (xWstr Config.default [0x48, 0x69]) 3 = 123 := by decide +kernel

/-! CLEAR (V50). -/

theorem test_clear_accepts :
    (nextOf (exec (.clear 0) ready)).map (fun t => (t.pend.length, t.pend.drop 15)) =
      some (18, [.pin .e false, .dly 40, .dly 2000]) := by decide +kernel
theorem test_clear_pulses :
    pulses (xClear Config.default) 0 = [⟨false, 0x0, 1⟩, ⟨false, 0x1, 1⟩] ∧
    latAfter (xClear Config.default) 0 = 0b000001 ∧ ticksOf (xClear Config.default) 0 = 2062 := by decide +kernel

/-! SETCUR (V51 to V61). -/

theorem test_setcur_bytes :
    [(0, 0), (0, 3), (1, 3), (1, 0), (0, 15), (1, 15), (0, 16), (2, 0), (0, 99), (5, 99), (255, 255)].map
      (fun (r, c) => setCursorByte Config.default (BitVec.ofNat 8 r) (BitVec.ofNat 8 c)) =
    [0x80, 0x83, 0xC3, 0xC0, 0x8F, 0xCF, 0xC0, 0xC0, 0xC0, 0xC0, 0xC0] := by decide +kernel
theorem test_setcur_accepts :
    (nextOf (exec (.setcur 1 3) ready)).map (fun t => (pulses t.pend 0, t.arg0, t.arg1)) =
      some ([⟨false, 0xC, 1⟩, ⟨false, 0x3, 1⟩], 1, 3) := by decide +kernel

/-! The steps, the ports and reset (V22's rows, V70 to V75). -/

theorem test_execute_pin :
    (nextOf (step (busyWith [.pin .d5 true, .dly 1]))).map (fun t => (t.lat, t.pend, t.pinOut .d5)) =
      some (0b000010, [.dly 1], .driven true) := by decide +kernel
theorem test_delay_step :
    (nextOf (step { busyWith [.pin .e false] with dly := 1, lat := 0b101010 })).map (fun t => (t.dly, t.lat)) =
      some (0, 0b101010) := by decide +kernel
theorem test_fetch_step :
    (nextOf (step { busyWith [] with str := true, sp := 0x0101, mem := hiSpace, opc := 5 })).map
      (fun t => (t.sp, t.str, t.pend == xWchr Config.default 0x69)) = some (0x0102, true, true) := by decide +kernel
theorem test_fetch_sees_the_ticks_store :
    (nextOf (step { busyWith [] with
        str := true, sp := 0xFFFF, opc := 5, inputs := [⟨false, false, 0, [(0xFFFF, 0x41)]⟩] })).map
      (fun t => (t.sp, t.str, t.pend == xWchr Config.default 0x41)) = some (0x0000, true, true) := by decide +kernel
theorem test_completion_of_init :
    (nextOf (step { busyWith [] with opc := 0, initd := false })).map (·.status) = some 0x02 := by decide +kernel
theorem test_reserved_word_is_ignored :
    (nextOf (step (present 0x080000 ready))).map (fun t => (t.busy, t.tr == ready.tr, t.status)) =
      some (false, true, 0x02) := by decide +kernel
theorem test_command_while_busy_is_refused :
    refusalOf (step (present 0x044100 (busyWith []))) = some .commandWhileBusy := by decide +kernel
theorem test_reset_mid_pulse :
    (nextOf (step resetting)).map
      (fun t => (t.lat, t.dir, t.dly, t.busy)) = some (0b000000, 0b111111, 0, false) ∧
    (nextOf (step resetting)).map
      (fun t => (t.pend ++ t.tr, t.pinOut .e)) = some ([], .z) := by decide +kernel
theorem test_status_before_init : State.reset.status = 0x00 ∧ ready.status = 0x02 := by decide +kernel
theorem test_mem_addr :
    ({ busyWith [] with str := true, sp := 0x0101 } : State).memAddr = some 0x0101 ∧ ready.memAddr = none ∧
    ({ busyWith [] with str := true, inputs := [resetInput] } : State).memAddr = none := by decide +kernel
theorem test_physical_pins :
    ready.physicalPin 5 = some (.driven false) ∧ State.reset.physicalPin 5 = some .z ∧ ready.physicalPin 6 = none := by
  decide +kernel
theorem test_received :
    ({ ready with tr := xStrobe Config.default ++ ready.tr ++ xNibble Config.default 3 true } : State).received =
      [(false, 3)] := by decide +kernel

/-! The string space. -/

theorem test_memory_form :
    Memory.write (Memory.write [] 0x0102 0x33) 0x0101 0x22 = [(0x0101, 0x22), (0x0102, 0x33)] ∧
    Memory.write [(0x0101, 0x22)] 0x0101 0x00 = [] ∧ Memory.wf [(0x0102, 0x33), (0x0101, 0x22)] = false ∧
    Memory.wf [(0x0101, 0x00)] = false ∧ Memory.wf [(65536, 0x01)] = false := by decide +kernel
theorem test_memory_wraps :
    Memory.writeBytes [] 0xFFFF [0x48, 0x69, 0x00] = [(0x0000, 0x69), (0xFFFF, 0x48)] ∧
    Memory.read [(0x0000, 0x69), (0xFFFF, 0x48)] (0xFFFF + 1) = 0x69 := by decide +kernel

/-! Scripts and the assembler (P4, R84, R85). -/

theorem test_script_list :
    (scriptList Config.default [] [0x000000, 0x080000, 0x050200, 0x030100, 0x070010]).map List.length =
      some 152 := by decide +kernel
theorem test_script_ticks :
    [0x080000, 0x050200, 0x030100, 0x070010].map (wordTicks Config.default []) =
      [some 1, some 3, some 61, some 61] := by decide +kernel
theorem test_assemble_nibble :
    assembleLine ['N', 'I', 'B', 'B', 'L', 'E', ' ', '0', 'x', 'A', ',', ' ', '1', ' ', ';', ' ', 'V', '5'] =
      some (.op (.nibble 0 0xA 0 true)) := by decide +kernel
theorem test_assemble_character :
    assembleLine ['W', 'C', 'H', 'R', ' ', '\'', 'A', '\''] = some (.op (.wchr 0x41 0)) := by decide +kernel
theorem test_assemble_refuses :
    assembleLine ['N', 'I', 'B', 'B', 'L', 'E', ' ', '1', '6', ',', '0'] = none ∧
    assembleLine ['H', 'O', 'M', 'E'] = none ∧ assembleLine ['W', 'C', 'M', 'D', ' ', '2', '5', '6'] = none ∧
    assembleLine ['S', 'E', 'T', 'C', 'U', 'R', ' ', '1'] = none := by decide +kernel
theorem test_assemble_program :
    assemble 0x00
      [['.', 's', 't', 'r', 'i', 'n', 'g', ' ', '0', 'x', '0', '1', '0', '0', ',', ' ', '"', 'H', 'i', '"'],
       ['I', 'N', 'I', 'T'], ['W', 'S', 'T', 'R', ' ', '2', '5', '6']] [] =
      some ([0x000000, 0x050100], hiSpace) := by decide +kernel

/-! Witnesses: for each obligation with hypotheses, concrete data that meet them. -/

/-- A state in which nothing waits is quiet for any time. -/
theorem quietFor_of_no_inputs (k : Nat) {s : State} (h : s.inputs = []) : s.quietFor k := by
  intro i hi
  rw [h] at hi
  simp at hi

/-- An idle initialised state has the invariant. -/
theorem ready_inv : ready.Inv where
  config := by decide +kernel
  memory := by decide +kernel
  idle := by decide +kernel
  dlyFits := by decide +kernel
  loadsFit := by intro n h; simp [ready, State.reset, State.resetWith] at h
  strIsWstr := by decide +kernel
  dirIsInit := by intro p h; simp [ready, State.reset, State.resetWith] at h
  eLow := by decide +kernel
  outputs := by decide +kernel
  log := by decide +kernel

theorem witness_DecodeOfEncode :
    (Instr.nibble 0xF 0xA 0x7F true).wellFormed true = true ∧ (Instr.setcur 255 255).wellFormed false = true := by
  decide +kernel

theorem witness_EncodeOfDecode :
    decode true 0x02FAFF = .op (.nibble 0xF 0xA 0x7F true) ∧ decode false 0x05FFFF = .op (.wstr 0xFFFF) := by decide +kernel

theorem witness_OpAloneSelectsTheOperation :
    (⟨2, 0x020000, 0xFF0000⟩ : OpcodeRow) ∈ opcodeMap ∧
    (0x02FAFF#24).extractLsb' 16 8 = (0x020A01#24).extractLsb' 16 8 ∧
    decode true 0x02FAFF = .op (.nibble 0xF 0xA 0x7F true) ∧
    decode false 0x02FAFF = .ignored .internalNotExposed ∧
    ready.busy = false ∧ decode ready.cfg.exposeInternal 0x032800 = .op (.wcmd 0x28 0) := by decide +kernel

/-- Both ends of the reserved range. -/
theorem witness_ReservedWordChangesNothing :
    [0x080000#24, 0xFFFFFF#24].all (fun w => decide (
      (present w ready).cfg.ok = true ∧ (present w ready).input.reset = false ∧ (present w ready).busy = false ∧
      (present w ready).input.cmdValid = true ∧
      8 ≤ ((present w ready).input.cmdWord.extractLsb' 16 8).toNat)) = true := by decide +kernel

theorem witness_InternalOpcodesNeedTheStrap :
    [(0x010000#24, false), (0x010000#24, true), (0x020A01#24, false), (0x020A01#24, true)].all (fun (w, e) => decide (
      (present w (exposed e)).cfg.ok = true ∧ (present w (exposed e)).input.reset = false ∧
      (present w (exposed e)).busy = false ∧ (present w (exposed e)).input.cmdValid = true ∧
      ((present w (exposed e)).input.cmdWord.extractLsb' 16 8 = 0x01#8 ∨
        (present w (exposed e)).input.cmdWord.extractLsb' 16 8 = 0x02#8) ∧
      (present w (exposed e)).cfg.exposeInternal = e)) = true := by decide +kernel

theorem witness_IgnoredBitsChangeNothing :
    (∃ t, exec (.wcmd 0x28 0xFF) ready = .next t) ∧ decode false 0x0328FF = .op (.wcmd 0x28 0xFF) :=
  ⟨exists_next' (by decide +kernel), by decide +kernel⟩

theorem witness_OperandLatchesAreNotRead :
    (∃ t, step (busyWith [.pin .rs true]) = .next t) ∧ ∃ t, step (present 0x044100 ready) = .next t :=
  ⟨exists_next' (by decide +kernel), exists_next' (by decide +kernel)⟩

/-- One idle state for the acceptance statements of all eight operations. -/
theorem witness_InitIsAccepted : State.reset.busy = false := rfl
theorem witness_StrobeIsAccepted : ready.busy = false := rfl
theorem witness_NibbleIsAccepted : ready.busy = false := rfl
theorem witness_ByteTransfersAreAccepted : ready.busy = false := rfl
theorem witness_WstrIsAccepted : ready.busy = false := rfl
theorem witness_ClearIsAccepted : ready.busy = false := rfl
theorem witness_SetcurIsAccepted : ready.busy = false := rfl

theorem witness_AcceptanceFrame :
    [Instr.init 0, .strobe 0, .nibble 0 5 0 false, .wcmd 0x28 0, .wchr 0x41 0, .wstr 0x0100, .clear 0,
      .setcur 1 3].all (fun i => (nextOf (exec i ready)).isSome) = true := by decide +kernel

theorem witness_IdleStepAccepts :
    (ready.cfg.ok = true ∧ ready.input.reset = false ∧ ready.busy = false ∧ ready.input.cmdValid = false) ∧
    [0x080000#24, 0x050100#24, 0x07FFFF#24].all (fun w => decide (
      (present w ready).cfg.ok = true ∧ (present w ready).input.reset = false ∧ (present w ready).busy = false ∧
      (present w ready).input.cmdValid = true)) = true ∧
    decode ready.cfg.exposeInternal 0x080000 = .ignored .reservedOpcode ∧
    decode ready.cfg.exposeInternal 0x050100 = .op (.wstr 0x0100) ∧
    decode ready.cfg.exposeInternal 0x07FFFF = .op (.setcur 255 255) := by decide +kernel

theorem witness_StepRunsTheDecodedInstruction :
    ((present 0x070103 ready).cfg.ok = true ∧ (present 0x070103 ready).input.reset = false ∧
      (present 0x070103 ready).busy = false ∧ (present 0x070103 ready).input.cmdValid = true ∧
      decode (present 0x070103 ready).cfg.exposeInternal (present 0x070103 ready).input.cmdWord =
        .op (.setcur 1 3)) ∧
    (busyWith [.dly 7]).cfg.ok = true ∧ decodeTableWord 24 0x010000 = some (.strobe 0) := by decide +kernel

/-- DLY at both ends of its range. -/
theorem witness_DelayStepCountsDown :
    [1, 65535].all (fun n => decide (
      (delaying n).cfg.ok = true ∧ (delaying n).input.reset = false ∧ (delaying n).busy = true ∧
      (delaying n).input.cmdValid = false ∧ (delaying n).dly ≠ 0)) = true := by decide +kernel

/-- The direction bit 1 and already 0. -/
theorem witness_DirOutMakesAnOutput :
    [0b111111#6, 0b000000#6].all (fun d => decide (
      (pins d 0 (.dirOut .e)).cfg.ok = true ∧ (pins d 0 (.dirOut .e)).input.reset = false ∧
      (pins d 0 (.dirOut .e)).busy = true ∧ (pins d 0 (.dirOut .e)).input.cmdValid = false ∧
      (pins d 0 (.dirOut .e)).dly = 0 ∧ (pins d 0 (.dirOut .e)).pend = .dirOut .e :: [.dly 1])) = true ∧
    getRole 0b111111 .e = true ∧ getRole 0b000000 .e = false := by decide +kernel

/-- The wire driven and at Z, the level new and held already. -/
theorem witness_PinWritesOneLatch :
    [(0b111111#6, 0b000000#6), (0b111111#6, 0b100000#6), (0b000000#6, 0b000000#6), (0b000000#6, 0b100000#6)].all
      (fun (d, l) => decide (
        (pins d l (.pin .e true)).cfg.ok = true ∧ (pins d l (.pin .e true)).input.reset = false ∧
        (pins d l (.pin .e true)).busy = true ∧ (pins d l (.pin .e true)).input.cmdValid = false ∧
        (pins d l (.pin .e true)).dly = 0 ∧ (pins d l (.pin .e true)).pend = .pin .e true :: [.dly 1])) = true ∧
    getRole 0b100000 .e = true := by decide +kernel

/-- The hypotheses of DlyHoldsTheSequencer for DLY(n) before a PIN. -/
def dlyHypotheses (n : Nat) : Prop :=
  (busyWith [.dly n, .pin .e false]).cfg.ok = true ∧ (busyWith [.dly n, .pin .e false]).busy = true ∧
  (busyWith [.dly n, .pin .e false]).dly = 0 ∧
  (busyWith [.dly n, .pin .e false]).pend = .dly n :: .pin .e false :: [] ∧
  (busyWith [.dly n, .pin .e false]).quietFor (n + 2)

/-- DLY(0) and the longest load. -/
theorem witness_DlyHoldsTheSequencer : dlyHypotheses 0 ∧ dlyHypotheses 65535 :=
  ⟨⟨ready_inv.config, rfl, rfl, rfl, quietFor_of_no_inputs _ rfl⟩,
   ⟨ready_inv.config, rfl, rfl, rfl, quietFor_of_no_inputs _ rfl⟩⟩

/-- A character and TERM, SP at the end of the space. -/
theorem witness_FetchStepReadsOneByte :
    [0x0101#16, 0xFFFF#16].all (fun a => decide (
      (fetching a).cfg.ok = true ∧ (fetching a).input.reset = false ∧ (fetching a).busy = true ∧
      (fetching a).input.cmdValid = false ∧ (fetching a).dly = 0 ∧ (fetching a).pend = [] ∧
      (fetching a).str = true)) = true ∧
    hiSpace.read 0x0101 ≠ Config.default.term ∧ hiSpace.read 0xFFFF = Config.default.term := by decide +kernel

theorem witness_CompletionStepEndsTheOperation :
    [0#3, 7#3].all (fun o => decide (
      (completing o).cfg.ok = true ∧ (completing o).input.reset = false ∧ (completing o).busy = true ∧
      (completing o).input.cmdValid = false ∧ (completing o).dly = 0 ∧ (completing o).pend = [] ∧
      (completing o).str = false ∧ (completing o).opc = o)) = true := by decide +kernel

/-- Reset in mid-operation with a command and a store beside it, and a quiet tick after it. -/
theorem witness_ResetWinsOverEverything :
    resetting.cfg.ok = true ∧ resetting.input.reset = true ∧ resetting.busy = true ∧
    resetting.input.cmdValid = true ∧ TickInput.none.reset = false ∧ TickInput.none.cmdValid = false := by
  decide +kernel

theorem witness_StepStopsOnlyOutsideTheHostsDuty :
    ready.cfg.ok = true ∧ (∀ j < 1, ∀ u, run j ready = .next u → u.hostWaits) := by
  refine ⟨by decide +kernel, ?_⟩
  intro j hj u hu
  obtain rfl : j = 0 := by omega
  rw [run_zero] at hu
  injection hu with hu
  subst hu
  intro hb
  exact absurd hb (by decide +kernel)

theorem witness_StepReadsThisTicksInputOnly :
    TickInput.none.cmdValid = false ∧
    ∃ t, step (({ ready with inputs := TickInput.none :: [TickInput.command 0x044100] } : State)) = .next t :=
  ⟨rfl, exists_next' (by decide +kernel)⟩

theorem witness_LatchesChangeOneBitPerTick :
    (busyWith [.pin .rs true]).input.reset = false ∧ getRole (busyWith [.pin .rs true]).lat .rs = false ∧
    ∃ t, step (busyWith [.pin .rs true]) = .next t ∧ getRole t.lat .rs = true :=
  ⟨rfl, by decide +kernel, exists_next (fun t => getRole t.lat .rs) (by decide +kernel)⟩

theorem witness_DirectionBitsAreOnlyCleared :
    getRole 0b111111 .rs = true ∧
    ∃ t, step { busyWith [.dirOut .rs] with dir := 0b111111 } = .next t ∧ (!getRole t.dir .rs) = true :=
  ⟨by decide +kernel, exists_next (fun t => !getRole t.dir .rs) (by decide +kernel)⟩

/-- A counting block, a loading block and an idle one. -/
theorem witness_DelayCounterIsLoadedByDlyOnly :
    (∃ t, step { busyWith [] with dly := 5 } = .next t) ∧
    (∃ t, step (busyWith [.dly 3]) = .next t ∧ (t.dly != (busyWith [.dly 3]).dly) = true) ∧
    ready.busy = false ∧ (∃ t, step ready = .next t) :=
  ⟨exists_next' (by decide +kernel),
   exists_next (fun t => t.dly != (busyWith [.dly 3]).dly) (by decide +kernel), rfl,
   exists_next' (by decide +kernel)⟩

/-- INIT in progress, its last DIR_OUT pending, has the invariant. -/
def initRuns : State :=
  { State.reset with
    busy := true, dir := 0b001000, tr := [.dirOut .e, .dirOut .rs, .dirOut .d4, .dirOut .d5, .dirOut .d6],
    pend := [.dirOut .d7] }

theorem initRuns_inv : initRuns.Inv where
  config := by decide +kernel
  memory := by decide +kernel
  idle := by decide +kernel
  dlyFits := by decide +kernel
  loadsFit := by intro n h; simp [initRuns] at h
  strIsWstr := by decide +kernel
  dirIsInit := by intro p _; rfl
  eLow := by decide +kernel
  outputs := by decide +kernel
  log := by decide +kernel

/-- INIT in its completion step has the invariant. -/
def initEnds : State := { ready with busy := true, initd := false, opc := 0 }

theorem initEnds_inv : initEnds.Inv where
  config := by decide +kernel
  memory := by decide +kernel
  idle := by decide +kernel
  dlyFits := by decide +kernel
  loadsFit := by intro n h; simp [initEnds, ready, State.reset, State.resetWith] at h
  strIsWstr := by decide +kernel
  dirIsInit := by intro p h; simp [initEnds, ready, State.reset, State.resetWith] at h
  eLow := by decide +kernel
  outputs := by decide +kernel
  log := by decide +kernel

/-- A step that clears a direction bit, and one that sets INITD. -/
theorem witness_OnlyInitWritesDirAndInitd :
    (initRuns.Inv ∧ initRuns.input.reset = false ∧
      ∃ t, step initRuns = .next t ∧ (t.dir != initRuns.dir) = true) ∧
    (initEnds.Inv ∧ initEnds.input.reset = false ∧
      ∃ t, step initEnds = .next t ∧ (t.initd != initEnds.initd) = true) :=
  ⟨⟨initRuns_inv, rfl, exists_next (fun t => t.dir != initRuns.dir) (by decide +kernel)⟩,
   ⟨initEnds_inv, rfl, exists_next (fun t => t.initd != initEnds.initd) (by decide +kernel)⟩⟩

theorem witness_StringSpaceIsTheHosts :
    ready.mem.wf = true ∧ ∃ t, step { ready with inputs := [⟨false, false, 0, [(0xFFFF, 0x41)]⟩] } = .next t :=
  ⟨rfl, exists_next' (by decide +kernel)⟩

theorem witness_LogGrowsByWhatExecutes :
    (busyWith [.pin .e true]).input.reset = false ∧ ∃ t, step (busyWith [.pin .e true]) = .next t :=
  ⟨rfl, exists_next' (by decide +kernel)⟩

/-- BUSY rising, BUSY falling, STR falling. -/
theorem witness_StatusShowsBusyAndInitd :
    (ready.busy = false ∧ ∃ t, step (present 0x044100 ready) = .next t ∧ t.busy = true) ∧
    (∃ t, step (busyWith []) = .next t ∧ (!t.busy) = true) ∧
    (∃ t, step { busyWith [] with str := true, sp := 0x0200 } = .next t ∧ (!t.str) = true) :=
  ⟨⟨rfl, exists_next (·.busy) (by decide +kernel)⟩, exists_next (!·.busy) (by decide +kernel),
   exists_next (!·.str) (by decide +kernel)⟩

theorem witness_StringSpaceFormIsCanonical :
    hiSpace.wf = true ∧ (Memory.write (Memory.write [] 0x0101 0x69) 0x0100 0x48).wf = true ∧
    ∀ a : Addr, hiSpace.read a = (Memory.write (Memory.write [] 0x0101 0x69) 0x0100 0x48).read a :=
  ⟨by decide +kernel, by decide +kernel, fun _ => rfl⟩

theorem witness_StepKeepsTheInvariant : (present 0x044100 ready).Inv ∧ ∃ t, step (present 0x044100 ready) = .next t :=
  ⟨⟨ready_inv.config, ready_inv.memory, ready_inv.idle, ready_inv.dlyFits, ready_inv.loadsFit, ready_inv.strIsWstr,
    ready_inv.dirIsInit, ready_inv.eLow, ready_inv.outputs, ready_inv.log⟩, exists_next' (by decide +kernel)⟩

theorem witness_ResetHasTheInvariant : Config.default.ok = true ∧ hiSpace.wf = true := by decide +kernel

theorem witness_EnableIsLowWhenIdleAfterInit :
    ready.Inv ∧ ready.initd = true ∧ ready.noResetFor 1 ∧ ∃ u, run 1 ready = .next u :=
  ⟨ready_inv, rfl, fun i hi => absurd hi (by simp [ready, State.reset, State.resetWith]),
   _, run_one (step_of_idle ready_inv.config rfl rfl rfl)⟩

theorem ready_idle : ready.Idle := ⟨rfl, rfl, rfl, rfl⟩

/-- INIT, and an operation after it. -/
theorem witness_OperationRunsItsExpansion :
    (present 0x000000 State.reset).cfg.ok = true ∧ (present 0x000000 State.reset).Idle ∧
    (present 0x000000 State.reset).inputs = TickInput.command 0x000000 :: [] ∧
    decode false 0x000000 = .op (.init 0) ∧ expansion Config.default (.init 0) = some (xInit Config.default) ∧
    decode false 0x07FFFF = .op (.setcur 255 255) ∧
    expansion Config.default (.setcur 255 255) = some (xSetcur Config.default 255 255) ∧
    (∀ k, ({ State.reset with inputs := [] } : State).quietFor k) :=
  ⟨by decide +kernel, ⟨rfl, rfl, rfl, rfl⟩, rfl, rfl, rfl, rfl, rfl, fun k => quietFor_of_no_inputs k rfl⟩

/-- A string of two characters and the empty string. -/
theorem witness_WstrSendsTheString :
    (present 0x050100 { ready with mem := hiSpace }).cfg.ok = true ∧
    (present 0x050100 { ready with mem := hiSpace }).Idle ∧
    decode false 0x050100 = .op (.wstr 0x0100) ∧ stringOf Config.default.term hiSpace 0x0100 = some [0x48, 0x69] ∧
    stringOf Config.default.term hiSpace 0x0200 = some [] ∧
    (∀ k, ({ ready with mem := hiSpace, inputs := [] } : State).quietFor k) :=
  ⟨by decide +kernel, ⟨rfl, rfl, rfl, rfl⟩, rfl, by decide +kernel, by decide +kernel,
   fun k => quietFor_of_no_inputs k rfl⟩

/-- A string that wraps, the terminator itself, a character. -/
theorem witness_StringEndsAtTheFirstTerm :
    stringOf 0 (Memory.writeBytes [] 0xFFFF [0x48, 0x69, 0x00]) 0xFFFF = some [0x48, 0x69] ∧
    hiSpace.read 0x0102 = 0 ∧ hiSpace.read 0x0100 ≠ 0 := by decide +kernel

/-- No address of an empty space holds 0x01. -/
theorem stringAt_one_none (fuel : Nat) (a : Addr) : stringAt 0x01 [] fuel a = none := by
  induction fuel generalizing a with
  | zero => rfl
  | succ fuel ih =>
    have h : Memory.read [] a ≠ 0x01 := by simp [Memory.read, Memory.unlisted]
    rw [stringAt, if_neg h, ih]
    rfl

/-- TERM 0x01, which no address of the empty string space holds. -/
def endless : State := { ready with cfg := { Config.default with term := 0x01 } }

theorem endless_not_terminated : ¬ terminated endless.cfg endless.mem 0x0300 := by
  show ¬ (stringAt 0x01 [] 65536 0x0300).isSome = true
  rw [stringAt_one_none]
  decide

theorem witness_WstrWithoutTermNeverEnds :
    endless.cfg.ok = true ∧ endless.Idle ∧ ¬ terminated endless.cfg endless.mem 0x0300 ∧
    ∃ t, exec (.wstr 0x0300) endless = .next t ∧ t.quietFor 9 := by
  have hi : endless.busy = false ∧ endless.dly = 0 ∧ endless.pend = [] ∧ endless.str = false := by decide +kernel
  have hx : exec (.wstr 0x0300) endless = .next (acceptedString 0x0300 endless) := by
    rw [exec, execWstr, acceptString_idle 0x0300 (s := endless) hi.1]
  exact ⟨by decide +kernel, ⟨hi.1, hi.2.1, hi.2.2.1, hi.2.2.2⟩, endless_not_terminated, _, hx,
    quietFor_of_no_inputs 9 rfl⟩

/-- The default INIT_SEQ, and one that sends no nibble. -/
theorem witness_InitLeavesTheInitialisedState :
    (present (encode (.init 0)) State.reset).cfg.ok = true ∧ State.reset.Idle ∧
    (∀ k, ({ State.reset with inputs := [] } : State).quietFor k) ∧
    lastInitNibble Config.default = some 1 ∧ lastInitNibble { Config.default with initSeq := [.wait 5] } = none ∧
    { Config.default with initSeq := [.wait 5] }.ok = true :=
  ⟨by decide +kernel, ⟨rfl, rfl, rfl, rfl⟩, fun k => quietFor_of_no_inputs k rfl, by decide +kernel,
   by decide +kernel, by decide +kernel⟩

/-- A script with an ignored word, an empty string and a character. -/
theorem witness_ScriptRunsItsWordsInOrder :
    (∃ ins, scriptInputs Config.default hiSpace [0x080000, 0x050200, 0x044100] = some ins ∧
      ({ ready with mem := hiSpace, inputs := ins ++ [] } : State).Idle) ∧
    (∃ xs, scriptList Config.default hiSpace [0x080000, 0x050200, 0x044100] = some xs) :=
  ⟨(Option.isSome_iff_exists.mp (by decide +kernel)).imp fun _ h => ⟨h, rfl, rfl, rfl, rfl⟩,
   Option.isSome_iff_exists.mp (by decide +kernel)⟩

/-- A boot script with a string: from reset, INIT, then WSTR of "Hi". -/
theorem witness_BootedScriptIsReceivedWhole :
    Config.default.ok = true ∧ initFirst false [0x000000, 0x050100] = true ∧
    initFirst false [0x050100, 0x000000] = false ∧
    (scriptInputs Config.default hiSpace [0x000000, 0x050100]).isSome = true ∧
    (scriptList Config.default hiSpace [0x000000, 0x050100]).map List.length = some 152 := by decide +kernel

/-- A STROBE at its first micro-op. -/
def strobing : State := busyWith [.pin .e true, .dly 1, .pin .e false]

theorem witness_StrobeHoldsEnableHigh :
    strobing.cfg.ok = true ∧ strobing.busy = true ∧ strobing.dly = 0 ∧
    strobing.pend = [.pin .e true, .dly strobing.cfg.nPw, .pin .e false] ++ [] ∧ getRole strobing.lat .e = false ∧
    getRole strobing.dir .e = false ∧ strobing.quietFor (strobing.cfg.nPw + 3) ∧ getRole 0b100000 .e = true :=
  ⟨by decide +kernel, rfl, rfl, rfl, by decide, by decide, quietFor_of_no_inputs _ rfl, by decide⟩

theorem witness_ExpansionsKeepTheirShape :
    Config.default.ok = true ∧ expansion Config.default (.strobe 0) = some (xStrobe Config.default) ∧
    xStrobe Config.default = [] ++ .pin .e true :: [.dly 1] ++ .pin .e false :: [] ∧
    (∀ v, MicroOp.pin .e v ∉ [MicroOp.dly 1]) ∧ getRole 0b011111 .e = false := by decide +kernel

theorem witness_NibbleMakesOnePulse : getRole 0b011111 .e = false := by decide +kernel
theorem witness_ByteMakesTwoPulses :
    getRole 0b011111 .e = false ∧
    pulses (xByte Config.default 0x28 true) 0b011111 = [⟨false, 2, 1⟩, ⟨false, 8, 1⟩] := by decide +kernel
theorem witness_StringMakesItsCharactersPulses : getRole 0b000000 .e = false := by decide +kernel
theorem witness_ClearSettlesLonger : Config.default.ok = true ∧ getRole 0b000000 .e = false := by decide +kernel

theorem witness_ControllerReceivesDrivenPulses :
    (0b111111 : RoleBits) ≠ 0 ∧ ∀ p, MicroOp.dirOut p ∉ xStrobe Config.default := by
  refine ⟨by decide +kernel, ?_⟩
  intro p
  simp [xStrobe]

/-- Both sides of both bounds. -/
theorem witness_CursorRangeCheck :
    (1#8).toNat < 2 ∧ (15#8).toNat < Config.default.cols ∧ 2 ≤ (2#8).toNat ∧
    Config.default.cols ≤ (16#8).toNat := by decide +kernel

theorem witness_OutOfRangeCursorIsTheDefault :
    ready.cfg.ok = true ∧ 2 ≤ (2#8).toNat ∧ ready.cfg.cols ≤ (16#8).toNat ∧
    (nextOf (exec (.setcur 2 0) ready)).isSome = true ∧ (nextOf (exec (.setcur 0 16) ready)).isSome = true ∧
    (nextOf (exec (.setcur 1 0) ready)).isSome = true := by decide +kernel

theorem witness_CursorAddressArithmetic :
    Config.default.ok = true ∧ (1#8).toNat < 2 ∧ (15#8).toNat < Config.default.cols := by decide +kernel

theorem witness_AssemblerWritesCanonicalWords :
    assembleLine ['C', 'L', 'E', 'A', 'R'] = some (.op (.clear 0)) := by decide +kernel

end Sys2Proof.Tests
end

section
/-! PROOF. The registers and the pins after reset (spec/10_state.md R23, R36). -/

namespace Sys2Proof.Machine

/-- The direction word of R36 makes every role an input (R22). -/
@[simp] theorem getRole_allInputs (p : Role) : getRole 0b111111#6 p = true := by
  cases p <;> rfl

/-- A role whose direction bit says input is not driven (R23). -/
theorem State.pinOut_of_input {s : State} {p : Role} (h : getRole s.dir p = true) : s.pinOut p = .z :=
  if_pos h

/-- After reset nothing is driven, whatever the configuration and the latches it gives (R36). -/
@[simp] theorem State.pinOut_resetWith (cfg : Config) (m : Memory) (ins : List TickInput) (p : Role) :
    (State.resetWith cfg m ins).pinOut p = .z :=
  State.pinOut_of_input (getRole_allInputs p)

/-- Settles O27: the registers are `State.resetWith`'s fields at the default configuration, and the direction bits it
sets leave every wire undriven. -/
theorem resetStateHoldsTheResetValues : Obligations.ResetStateHoldsTheResetValues := by
  unfold Obligations.ResetStateHoldsTheResetValues
  have lat : State.reset.lat = 0b000000#6 := rfl
  have latReset : State.reset.lat = State.reset.cfg.latReset := rfl
  have pins : ∀ p, State.reset.pinOut p = .z := State.pinOut_resetWith Config.default [] []
  exact ⟨lat, latReset, rfl, rfl, rfl, rfl, rfl, rfl, rfl, rfl, rfl, rfl, rfl, pins⟩

end Sys2Proof.Machine
end

section
/-! PROOF. The operand bits of a command word, by its operand bytes A0 and A1 (spec/30_encoding.md R70, R72 to R77). -/

namespace Sys2Proof

/-- Bits 15:0 are A0 and A1 (R70). -/
theorem a0Field_append_a1Field (w : CmdWord) : a0Field w ++ a1Field w = w.extractLsb' 0 16 :=
  BitVec.extractLsb'_append_extractLsb'_eq_extractLsb' (start₁ := 0) (len₁ := 8) (len₂ := 8) rfl

/-- A field of a field is a field of the whole. -/
theorem extractLsb'_extractLsb'_of_add_le {n start len start' len' : Nat} (x : BitVec n) (h : start' + len' ≤ len) :
    (x.extractLsb' start len).extractLsb' start' len' = x.extractLsb' (start + start') len' := by
  ext j hj
  have hlt : start' + j < len := by omega
  simp [hlt, Nat.add_assoc]

/-- Concatenated fields determine each other's bits. -/
theorem append_inj {m n : Nat} {a a' : BitVec m} {b b' : BitVec n} (h : a ++ b = a' ++ b') : a = a' ∧ b = b' := by
  constructor
  · simpa only [BitVec.extractLsb'_append_eq_left] using congrArg (BitVec.extractLsb' n m) h
  · simpa only [BitVec.extractLsb'_append_eq_right] using congrArg (BitVec.extractLsb' 0 n) h

/-- The bytes of format N hold all its bits (R73). -/
theorem formatN_inj {x y : BitVec 16} (h : formatN x = formatN y) : x = y := by
  have join (z : BitVec 16) : z.extractLsb' 8 8 ++ z.extractLsb' 0 8 = z :=
    BitVec.extractLsb'_append_extractLsb' (w := 8) (len := 8)
  injection h with ha hb
  rw [← join x, ha, hb, join y]

/-- The bytes of format H hold all its bits (R74). -/
theorem formatH_inj {xHigh xHigh' : BitVec 4} {n n' : Nibble} {xLow xLow' : BitVec 7} {c c' : Bool}
    (h : formatH xHigh n xLow c = formatH xHigh' n' xLow' c') : xHigh = xHigh' ∧ n = n' ∧ xLow = xLow' ∧ c = c' := by
  injection h with ha hb
  obtain ⟨hHigh, hn⟩ := append_inj ha
  obtain ⟨hLow, hc⟩ := append_inj hb
  exact ⟨hHigh, hn, hLow, by simpa using congrArg (BitVec.getLsbD · 0) hc⟩

/-- The bytes of format N, taken from a word's bits 15:0, are the word's (R73). -/
theorem formatN_operands (w : CmdWord) : formatN (w.extractLsb' 0 16) = ⟨a0Field w, a1Field w⟩ := by
  rw [formatN, ← a0Field_append_a1Field, BitVec.extractLsb'_append_eq_left, BitVec.extractLsb'_append_eq_right]

/-- The bytes of format P, taken from a word's bits 15:0, are the word's (R76). -/
theorem formatP_operands (w : CmdWord) : formatP (w.extractLsb' 0 16) = ⟨a0Field w, a1Field w⟩ := formatN_operands w

/-- The bytes of format H, taken from a word's four operand fields, are the word's (R74). -/
theorem formatH_operands (w : CmdWord) :
    formatH (w.extractLsb' 12 4) (w.extractLsb' 8 4) (w.extractLsb' 1 7) (w.getLsbD 0) = ⟨a0Field w, a1Field w⟩ := by
  have hc : BitVec.ofBool (w.getLsbD 0) = w.extractLsb' 0 1 := by
    ext j hj
    obtain rfl : j = 0 := by omega
    simp
  have ha : w.extractLsb' 12 4 ++ w.extractLsb' 8 4 = a0Field w :=
    BitVec.extractLsb'_append_extractLsb'_eq_extractLsb' (start₁ := 8) (len₁ := 4) (len₂ := 4) rfl
  have hb : w.extractLsb' 1 7 ++ w.extractLsb' 0 1 = a1Field w :=
    BitVec.extractLsb'_append_extractLsb'_eq_extractLsb' (start₁ := 0) (len₁ := 1) (len₂ := 7) rfl
  rw [formatH, hc, ha, hb]

/-- The three fields of the word an instruction encodes to (R70). -/
theorem encodeFields (i : Instr) : Laws.EncodeFields.Statement i := Laws.EncodeFields.of_parts ..

theorem operandBytes_encode (i : Instr) : ⟨a0Field (encode i), a1Field (encode i)⟩ = i.operandBytes := by
  obtain ⟨-, ha, hb⟩ := encodeFields i
  rw [ha, hb]

end Sys2Proof
end

section
/-! PROOF. The decoder as two choices (spec/30_encoding.md R71, R83): OP selects an opcode or none, and the operands are
read by the selected operation's format. -/

namespace Sys2Proof

/-- The operation of opcode `c` with its operands read from `w` (R72, R79). -/
def Instr.read (w : CmdWord) (c : BitVec 3) : Instr :=
  match c.toNat with
  | 0 => .init (w.extractLsb' 0 16)
  | 1 => .strobe (w.extractLsb' 0 16)
  | 2 => .nibble (w.extractLsb' 12 4) (w.extractLsb' 8 4) (w.extractLsb' 1 7) (w.getLsbD 0)
  | 3 => .wcmd (a0Field w) (a1Field w)
  | 4 => .wchr (a0Field w) (a1Field w)
  | 5 => .wstr (w.extractLsb' 0 16)
  | 6 => .clear (w.extractLsb' 0 16)
  | _ => .setcur (a0Field w) (a1Field w)

/-- What OP selects at a strap value: an opcode, or why the word is ignored (R80, R81, R83). -/
def selectedBy (e : Bool) (op : Byte) : Except IgnoredWord (BitVec 3) :=
  if 8 ≤ op.toNat then .error .reservedOpcode
  else if e = false ∧ (op.toNat = 1 ∨ op.toNat = 2) then .error .internalNotExposed
  else .ok (BitVec.ofNat 3 op.toNat)

/-- What a word decodes to, given what its OP selects. -/
def Decoded.ofSelection (w : CmdWord) : Except IgnoredWord (BitVec 3) → Decoded
  | .ok c => .op (Instr.read w c)
  | .error why => .ignored why

/-- The decoder makes the two choices one after the other; no operand bit takes part in the first (R71). -/
theorem decode_eq_ofSelection (e : Bool) (w : CmdWord) :
    decode e w = Decoded.ofSelection w (selectedBy e (opField w)) := by
  unfold decode
  split
  case h_9 h0 h1 h2 h3 h4 h5 h6 h7 =>
    have h : 8 ≤ (opField w).toNat := by simp only [imp_false] at *; omega
    simp [selectedBy, h, Decoded.ofSelection]
  all_goals next h => cases e <;> simp [selectedBy, h, Decoded.ofSelection, Instr.read, a0Field, a1Field]

@[simp] theorem opcode_read (w : CmdWord) (c : BitVec 3) : (Instr.read w c).opcode = c := by
  apply BitVec.eq_of_toNat_eq
  unfold Instr.read
  split
  case h_8 h0 h1 h2 h3 h4 h5 h6 =>
    have hlt : c.toNat < 8 := c.isLt
    have hc : c.toNat = 7 := by simp only [imp_false] at *; omega
    exact hc.symm
  all_goals next h => simp [Instr.opcode, h]

/-- Whatever the format, the operand bytes read are A0 and A1 of the word. -/
@[simp] theorem operandBytes_read (w : CmdWord) (c : BitVec 3) :
    (Instr.read w c).operandBytes = ⟨a0Field w, a1Field w⟩ := by
  unfold Instr.read
  split <;> simp only [Instr.operandBytes, formatN_operands, formatH_operands, formatP_operands, formatB, formatRC]

/-- Reading the operands of the word an instruction encodes to gives the instruction back. -/
theorem read_encode (i : Instr) : Instr.read (encode i) i.opcode = i := by
  have hbytes := operandBytes_encode i
  obtain ⟨-, ha, hb⟩ := encodeFields i
  cases i with
  | init x => exact congrArg Instr.init (formatN_inj ((formatN_operands _).trans hbytes))
  | strobe x => exact congrArg Instr.strobe (formatN_inj ((formatN_operands _).trans hbytes))
  | nibble xHigh n xLow c =>
    obtain ⟨hHigh, hn, hLow, hc⟩ := formatH_inj ((formatH_operands _).trans hbytes)
    simp only [Instr.read, Instr.opcode, BitVec.reduceToNat, hHigh, hn, hLow, hc]
  | wcmd b x => exact congrArg₂ Instr.wcmd ha hb
  | wchr b x => exact congrArg₂ Instr.wchr ha hb
  | wstr ptr => exact congrArg Instr.wstr (formatN_inj ((formatN_operands _).trans hbytes))
  | clear x => exact congrArg Instr.clear (formatN_inj ((formatN_operands _).trans hbytes))
  | setcur row col => exact congrArg₂ Instr.setcur ha hb

theorem decode_eq_op {e : Bool} {w : CmdWord} {i : Instr} :
    decode e w = .op i ↔ selectedBy e (opField w) = .ok i.opcode ∧ Instr.read w i.opcode = i := by
  rw [decode_eq_ofSelection]
  cases selectedBy e (opField w) with
  | error why => simp [Decoded.ofSelection]
  | ok c =>
    simp only [Decoded.ofSelection, Decoded.op.injEq, Except.ok.injEq]
    constructor
    · rintro rfl
      simp
    · rintro ⟨rfl, h⟩
      exact h

theorem decode_eq_ignored {e : Bool} {w : CmdWord} {why : IgnoredWord} :
    decode e w = .ignored why ↔ selectedBy e (opField w) = .error why := by
  rw [decode_eq_ofSelection]
  cases selectedBy e (opField w) <;> simp [Decoded.ofSelection]

end Sys2Proof
end

section
/-! PROOF. What OP selects (spec/30_encoding.md R71, R80, R81). -/

namespace Sys2Proof

theorem selectedBy_reserved (e : Bool) {op : Byte} (h : 8 ≤ op.toNat) : selectedBy e op = .error .reservedOpcode :=
  if_pos h

/-- OP with its upper bits 0 has the opcode's number. -/
@[simp] theorem toNat_zero_append (c : BitVec 3) : (0#5 ++ c : BitVec 8).toNat = c.toNat :=
  (BitVec.toNat_append 0#5 c).trans (by simp)

/-- A selected opcode is OP[2:0], and the other bits of OP are 0. -/
theorem eq_of_selectedBy {e : Bool} {op : Byte} {c : BitVec 3} (h : selectedBy e op = .ok c) : op = 0#5 ++ c := by
  unfold selectedBy at h
  split at h
  · cases h
  · split at h
    · cases h
    · next h8 _ =>
      injection h with h
      subst h
      apply BitVec.eq_of_toNat_eq
      rw [toNat_zero_append, BitVec.toNat_ofNat]
      omega

/-- With the internal operations exposed the low eight values of OP select their opcode. -/
theorem selectedBy_true {op : Byte} {c : BitVec 3} : selectedBy true op = .ok c ↔ op = 0#5 ++ c := by
  constructor
  · exact eq_of_selectedBy
  · rintro rfl
    have hc : ¬ 8 ≤ c.toNat := by have := c.isLt; omega
    simp [selectedBy, hc]

theorem exists_decode_eq_op {e : Bool} {w : CmdWord} {c : BitVec 3} :
    (∃ i, decode e w = .op i ∧ i.opcode = c) ↔ selectedBy e (opField w) = .ok c := by
  constructor
  · rintro ⟨i, h, rfl⟩
    exact (decode_eq_op.mp h).1
  · intro h
    exact ⟨Instr.read w c, decode_eq_op.mpr ⟨by simpa using h, by simp⟩, opcode_read w c⟩

/-- What an instruction encodes to decodes to it wherever some word decodes to an instruction of its opcode. -/
theorem decode_encode_of_opcode {e : Bool} {w : CmdWord} {i j : Instr} (h : decode e w = .op i)
    (hj : j.opcode = i.opcode) : decode e (encode j) = .op j := by
  obtain ⟨hsel, -⟩ := decode_eq_op.mp h
  have hop : opField (encode j) = opField w := by rw [(encodeFields j).1, hj, eq_of_selectedBy hsel]
  exact decode_eq_op.mpr ⟨by rw [hop, hj, hsel], read_encode j⟩

/-- The decoded instruction holds OP[2:0], A0 and A1 of the word (R71). -/
theorem fields_of_decode {e : Bool} {w : CmdWord} {i : Instr} (h : decode e w = .op i) :
    i.opcode = w.extractLsb' 16 3 ∧ i.operandBytes = ⟨a0Field w, a1Field w⟩ := by
  obtain ⟨hsel, hread⟩ := decode_eq_op.mp h
  constructor
  · calc i.opcode = (opField w).extractLsb' 0 3 := by
          rw [eq_of_selectedBy hsel, BitVec.extractLsb'_append_eq_right]
      _ = w.extractLsb' 16 3 := extractLsb'_extractLsb'_of_add_le w (by decide)
  · rw [← hread, operandBytes_read]

/-- The mask of the opcode map keeps OP and clears the operands (R71). -/
theorem and_opMask (w : CmdWord) : w &&& 0xFF0000#24 = opField w ++ 0#16 := by
  have hw : w = opField w ++ w.extractLsb' 0 16 := (BitVec.extractLsb'_append_extractLsb' (w := 8) (len := 16)).symm
  calc w &&& 0xFF0000#24
      = (opField w ++ w.extractLsb' 0 16) &&& (BitVec.allOnes 8 ++ 0#16) := congrArg (· &&& 0xFF0000#24) hw
    _ = opField w ++ 0#16 := by rw [BitVec.and_append, BitVec.and_allOnes, BitVec.and_zero]

/-- Comparing a word under the mask with `opcode * 0x10000` is comparing OP with the opcode (R71). -/
theorem and_opMask_eq_iff {w p : CmdWord} {c : BitVec 3} (hp : p.toNat = c.toNat * 0x10000) :
    w &&& 0xFF0000#24 = p ↔ opField w = 0#5 ++ c := by
  have hpat : p = (0#5 ++ c : BitVec 8) ++ 0#16 := by
    apply BitVec.eq_of_toNat_eq
    rw [BitVec.toNat_append, toNat_zero_append, hp, Nat.shiftLeft_eq]
    simp
  rw [and_opMask, hpat]
  exact BitVec.append_left_inj 0#16

end Sys2Proof
end

section
/-! PROOF. The statements about the words of the command port: what OP selects, what acceptance latches, reserved words
and ignored operand bits (spec/30_encoding.md R71, R78, R80). -/

namespace Sys2Proof.Machine

/-- Acceptance in an idle block latches the opcode number and the operand bytes (R71, R104). -/
theorem exec_idle_latches (i : Instr) {s : State} (h : s.busy = false) :
    ∃ t, exec i s = .next t ∧ t.opc = i.opcode ∧ t.arg0 = i.operandBytes.a0 ∧ t.arg1 = i.operandBytes.a1 := by
  cases hx : expansion s.cfg i with
  | some x => exact ⟨_, by rw [exec_of_expansion hx, accept_idle i x h], rfl, rfl, rfl⟩
  | none =>
    obtain ⟨ptr, rfl⟩ := expansion_eq_none hx
    exact ⟨_, acceptString_idle ptr h, rfl, rfl, rfl⟩

/-- The opcode map's rows have the one mask, and each the pattern of its opcode (R71, R79). -/
theorem opcodeMap_mask_pattern :
    ∀ row ∈ opcodeMap, row.mask = 0xFF0000#24 ∧ row.pattern.toNat = row.opcode.toNat * 0x10000 := by decide

/-- Settles O4: the decoder is a choice by OP (`decode_eq_op`, `decode_eq_ignored`), the row's mask and pattern make the
same choice (`and_opMask_eq_iff`), and the instruction keeps the word's fields for acceptance to latch. -/
theorem opAloneSelectsTheOperation : Obligations.OpAloneSelectsTheOperation := by
  unfold Obligations.OpAloneSelectsTheOperation
  refine ⟨?_, ?_, ?_⟩
  · intro row hrow
    obtain ⟨hmask, hpat⟩ := opcodeMap_mask_pattern row hrow
    refine ⟨hmask, hpat, fun w => ?_⟩
    rw [exists_decode_eq_op, selectedBy_true, hmask, and_opMask_eq_iff hpat]
  · intro e w w' hop
    have hsel : selectedBy e (opField w') = selectedBy e (opField w) := congrArg (selectedBy e) hop.symm
    constructor
    · intro i hi
      exact exists_decode_eq_op.mpr (hsel.trans (exists_decode_eq_op.mp ⟨i, hi, rfl⟩))
    · intro why hwhy
      exact decode_eq_ignored.mpr (hsel.trans (decode_eq_ignored.mp hwhy))
  · intro s w i hb hi
    obtain ⟨t, ht, hopc, h0, h1⟩ := exec_idle_latches i hb
    obtain ⟨hop, hbytes⟩ := fields_of_decode hi
    rw [hop] at hopc
    rw [hbytes] at h0 h1
    exact ⟨t, ht, hopc, h0, h1⟩

/-- Taking the tick's input changes no register. -/
theorem sameRegisters_takeInput (s : State) : s.SameRegisters s.takeInput :=
  ⟨rfl, rfl, rfl, rfl, rfl, rfl, rfl, rfl, rfl, rfl, rfl, rfl⟩

/-- Settles O6: the decoder ignores the word, so the tick only takes its input. -/
theorem reservedWordChangesNothing : Obligations.ReservedWordChangesNothing := by
  unfold Obligations.ReservedWordChangesNothing
  intro s hc hr hb _ hop
  have hi : decode s.cfg.exposeInternal s.input.cmdWord = .ignored .reservedOpcode :=
    decode_eq_ignored.mpr (selectedBy_reserved _ hop)
  exact ⟨hi, s.takeInput, step_of_ignored hc hr hb hi, sameRegisters_takeInput s, hb, ports_takeInput hb, rfl, rfl⟩

/-! What clearing the ignored bits leaves as it was (R78). -/

@[simp] theorem opcode_assembled (i : Instr) : i.assembled.opcode = i.opcode := by cases i <;> rfl
@[simp] theorem canonical_assembled (i : Instr) : i.assembled.canonical = true := by cases i <;> rfl
@[simp] theorem expansion_assembled (cfg : Config) (i : Instr) : expansion cfg i.assembled = expansion cfg i := by
  cases i <;> rfl

/-- Settles O8: clearing the ignored bits keeps the opcode and the expansion, and the encoding of any instruction of the
same opcode is decoded where the word was. -/
theorem ignoredBitsChangeNothing : Obligations.IgnoredBitsChangeNothing := by
  unfold Obligations.IgnoredBitsChangeNothing
  constructor
  · intro i s t h
    cases exec_cases h with
    | list x idle hx ht =>
      subst ht
      rw [← expansion_assembled] at hx
      rw [exec_of_expansion hx, accept_idle _ x idle]
      simp [acceptedState]
    | string ptr idle hi ht =>
      subst hi ht
      exact acceptString_idle ptr idle
  · intro e w i h
    exact ⟨canonical_assembled i, decode_encode_of_opcode h (opcode_assembled i)⟩

end Sys2Proof.Machine
end

section
/-! PROOF. The idle step: what a presented word does to an idle block (spec/40_sequencer_primitives.md R104). -/

namespace Sys2Proof.Machine

/-- A decoded word is latched field by field, whatever else acceptance does (R71, R104). -/
theorem acceptedState_of_decode {e : Bool} {w : CmdWord} {i : Instr} (h : decode e w = .op i) (x : List MicroOp)
    (s : State) :
    acceptedState i x s = { s with
      opc := w.extractLsb' 16 3, arg0 := w.extractLsb' 8 8, arg1 := w.extractLsb' 0 8, busy := true, str := false,
      pend := x } := by
  obtain ⟨hop, hbytes⟩ := fields_of_decode h
  rw [acceptedState, hop, hbytes]
  rfl

/-- As `acceptedState_of_decode`, for WSTR, whose pointer is the word's two operand bytes (R76). -/
theorem acceptedString_of_decode {e : Bool} {w : CmdWord} {ptr : Addr} (h : decode e w = .op (.wstr ptr))
    (s : State) :
    acceptedString ptr s = { s with
      opc := w.extractLsb' 16 3, arg0 := w.extractLsb' 8 8, arg1 := w.extractLsb' 0 8, busy := true, sp := ptr,
      str := true, pend := [] } := by
  obtain ⟨hop, hbytes⟩ := fields_of_decode h
  obtain ⟨h0, h1⟩ := OperandBytes.mk.inj hbytes
  rw [acceptedString, h0, h1, ← hop]
  rfl

/-- Every operation but WSTR has an expansion. -/
theorem exists_expansion (cfg : Config) {i : Instr} (h : ∀ ptr, i ≠ .wstr ptr) : ∃ x, expansion cfg i = some x := by
  cases hx : expansion cfg i with
  | some x => exact ⟨x, rfl⟩
  | none =>
    obtain ⟨ptr, hi⟩ := expansion_eq_none hx
    exact absurd hi (h ptr)

/-- Settles O18: the step is acceptance of what the word decodes to, and a decoded instruction holds the word's
fields. -/
theorem idleStepAccepts : Obligations.IdleStepAccepts := by
  unfold Obligations.IdleStepAccepts
  intro s hc hr hb
  refine ⟨step_of_idle hc hr hb, fun hv => ⟨?_, ?_, ?_⟩⟩
  · intro why hi
    exact step_of_ignored hc hr hb hi
  · intro ptr hi
    have hexec : exec (.wstr ptr) s.takeInput = .next (acceptedString ptr s.takeInput) := acceptString_idle ptr hb
    rw [step_of_op hc hr hb hv hi, hexec, acceptedString_of_decode hi]
  · intro i hi hw
    obtain ⟨x, hx⟩ := exists_expansion s.cfg hw
    refine ⟨x, hx, ?_⟩
    rw [step_of_op hc hr hb hv hi, exec_of_expansion (s := s.takeInput) hx, accept_idle i x (s := s.takeInput) hb,
      acceptedState_of_decode hi]

end Sys2Proof.Machine
end

section
/-! PROOF. The steps of a busy block that no command disturbs: delay, execute and completion
(spec/40_sequencer_primitives.md R101 to R103, R105, R106, R108). -/

namespace Sys2Proof.Machine

/-! One role's bit and its wire (R9, R23). -/

/-- Writing the level a role already holds changes nothing. -/
theorem setRole_of_getRole {v : RoleBits} {p : Role} {b : Bool} (h : getRole v p = b) : setRole v p b = v := by
  apply roleBits_ext
  intro q
  rw [getRole_setRole]
  split
  · next hq => rw [hq, h]
  · rfl

/-- No micro-op makes an output an input again (R101). -/
theorem getRole_dirStep_of_output {d : RoleBits} {q : Role} (m : MicroOp) (h : getRole d q = false) :
    getRole (dirStep d m) q = false := by
  cases m with
  | dirOut p => simp [dirStep, h]
  | pin p v => exact h
  | dly n => exact h

/-- A role whose direction bit says output carries its latch (R23). -/
theorem State.pinOut_of_output {s : State} {p : Role} {b : Bool} (hdir : getRole s.dir p = false)
    (hlat : getRole s.lat p = b) : s.pinOut p = .driven b := by
  simp [State.pinOut, hdir, hlat]

/-! The tick of a busy block by what it finds in DLY, PEND and STR. -/

/-- A step has one next state. -/
theorem step_next_unique {s t u : State} (ht : step s = .next t) (hu : step s = .next u) : t = u :=
  Host.Outcome.next.inj (ht.symm.trans hu)

section
variable {s : State} (hc : s.cfg.ok = true) (hr : s.input.reset = false) (hb : s.busy = true)
  (hv : s.input.cmdValid = false)
include hc hr hb hv

theorem step_of_delay (hd : s.dly ≠ 0) : step s = .next (delayStep s.takeInput) := by
  rw [step_of_busy hc hr hb hv, busyStep_delay (s := s.takeInput) hd]

theorem step_of_execute {m : MicroOp} {rest : List MicroOp} (hd : s.dly = 0) (hp : s.pend = m :: rest) :
    step s = .next (executeStep m rest s.takeInput) := by
  rw [step_of_busy hc hr hb hv, busyStep_execute (s := s.takeInput) hd hp]

theorem step_of_complete (hd : s.dly = 0) (hp : s.pend = []) (hs : s.str = false) :
    step s = .next (completionStep s.takeInput) := by
  rw [step_of_busy hc hr hb hv, busyStep_complete (s := s.takeInput) hd hp hs]

end

/-- Settles O20: the delay step writes DLY, which no wire, PEND or TR depends on. -/
theorem delayStepCountsDown : Obligations.DelayStepCountsDown := by
  unfold Obligations.DelayStepCountsDown
  intro s hc hr hb hv hd
  have hs := step_of_delay hc hr hb hv hd
  refine ⟨hs, fun t ht => ?_⟩
  obtain rfl := step_next_unique hs ht
  exact ⟨fun _ => rfl, rfl, rfl⟩

/-- Settles O21: the tick executes `setRole s.dir p false`, and the laws of a role's bit say what that holds. -/
theorem dirOutMakesAnOutput : Obligations.DirOutMakesAnOutput := by
  unfold Obligations.DirOutMakesAnOutput
  refine ⟨?_, fun m _ _ h => getRole_dirStep_of_output m h⟩
  intro s p rest hc hr hb hv hd hp
  have hs := step_of_execute hc hr hb hv hd hp
  refine ⟨setRole s.dir p false, hs, getRole_setRole_same .., fun q hq => getRole_setRole_other _ _ hq,
    setRole_of_getRole, fun t ht => ?_⟩
  obtain rfl := step_next_unique hs ht
  exact State.pinOut_of_output (getRole_setRole_same ..) rfl

/-- Settles O22: the tick executes `setRole s.lat p v`; DIR stays, so the wire is driven exactly if it was. -/
theorem pinWritesOneLatch : Obligations.PinWritesOneLatch := by
  unfold Obligations.PinWritesOneLatch
  intro s p v rest hc hr hb hv hd hp
  have hs := step_of_execute hc hr hb hv hd hp
  have hlat : getRole (setRole s.lat p v) p = v := getRole_setRole_same ..
  refine ⟨setRole s.lat p v, hs, hlat, fun q hq => getRole_setRole_other _ _ hq, setRole_of_getRole, fun t ht => ?_⟩
  obtain rfl := step_next_unique hs ht
  constructor
  · intro hout
    exact State.pinOut_of_output hout hlat
  · intro hin
    exact State.pinOut_of_input hin

/-- In a quiet tick a busy block executes the head of PEND (R106). -/
theorem step_execute_quiet {s : State} {m : MicroOp} {rest : List MicroOp} (hc : s.cfg.ok = true)
    (hb : s.busy = true) (hd : s.dly = 0) (hp : s.pend = m :: rest) (hq : s.input.quiet = true) :
    step s = .next (executeStep m rest (s.dropInputs 1)) := by
  rw [step_busy_quiet hc hb hq, busyStep_execute (s := s.dropInputs 1) hd hp]

/-- The state `k` ticks after the tick that executed `DLY(n)`, with `rest` then pending. -/
def countingState (n k : Nat) (rest : List MicroOp) (s : State) : State :=
  { s with dly := n - k, pend := rest, tr := s.tr ++ [.dly n], inputs := s.inputs.drop (1 + k) }

/-- `DLY(n)` takes one tick, and each of the `n` ticks after it only counts (R103, R105). -/
theorem run_dly {s : State} {n k : Nat} {rest : List MicroOp} (hc : s.cfg.ok = true) (hb : s.busy = true)
    (hd : s.dly = 0) (hp : s.pend = .dly n :: rest) (hk : k ≤ n) (hq : s.quietFor (k + 1)) :
    run (1 + k) s = .next (countingState n k rest s) := by
  have hload := step_execute_quiet hc hb hd hp hq.head
  have hcount := run_delay k (s := executeStep (.dly n) rest (s.dropInputs 1)) hc hb hk
    (hq.tail (List.drop_one ..))
  rw [run_add k (run_one hload), hcount]
  simp [executeStep, applyMicro, State.dropInputs, countingState, Nat.add_comm 1 k]

/-- Settles O23: `run_dly` gives the ticks that count, and once DLY is 0 the next tick executes the next micro-op. -/
theorem dlyHoldsTheSequencer : Obligations.DlyHoldsTheSequencer := by
  unfold Obligations.DlyHoldsTheSequencer
  intro s n m rest hc hb hd hp hq
  have hrun (k : Nat) (hk : k ≤ n) : run (1 + k) s = .next (countingState n k (m :: rest) s) :=
    run_dly hc hb hd hp hk (hq.mono (by omega))
  refine ⟨hrun, ?_⟩
  have hzero : (countingState n n (m :: rest) s).dly = 0 := Nat.sub_self n
  have hquiet : (countingState n n (m :: rest) s).quietFor 1 :=
    State.quietFor.drop (a := 1 + n) (hq.mono (by omega)) rfl
  have hnext := step_execute_quiet (s := countingState n n (m :: rest) s) hc hb hzero rfl hquiet.head
  have hlast := calc run (n + 2) s
      _ = run (1 + n + 1) s := by rw [Nat.add_comm 1 n]
      _ = run 1 (countingState n n (m :: rest) s) := run_add 1 (hrun n le_rfl)
      _ = .next (executeStep m rest ((countingState n n (m :: rest) s).dropInputs 1)) := run_one hnext
  exact ⟨_, hlast, executeStep_pend .., executeStep_tr .., executeStep_lat .., executeStep_dir ..,
    executeStep_dly m rest _ hzero, (executeStep_busy ..).trans hb⟩

/-- Settles O25: the completion step, by whether the operation was INIT. -/
theorem completionStepEndsTheOperation : Obligations.CompletionStepEndsTheOperation := by
  unfold Obligations.CompletionStepEndsTheOperation
  intro s hc hr hb hv hd hp hstr
  have hs := step_of_complete hc hr hb hv hd hp hstr
  constructor
  · intro hopc
    rw [hs, completionStep_init (s := s.takeInput) hopc]
  · intro hopc
    rw [hs, completionStep_other (s := s.takeInput) hopc]

end Sys2Proof.Machine
end

section
/-! PROOF. Acceptance of the operations that have an expansion: INIT (spec/41_initialize.md R130, R131). -/

namespace Sys2Proof.Machine

/-- An idle block accepts every operation that has an expansion (R104). -/
theorem exec_idle_of_expansion {i : Instr} {x : List MicroOp} {s : State} (idle : s.busy = false)
    (h : expansion s.cfg i = some x) : exec i s = .next (acceptedState i x s) := by
  rw [exec_of_expansion h, accept_idle i x idle]

/-- `X_INIT` part by part, for any function that agrees with `X_ITEM` on every item (R131). -/
theorem xInit_eq_of_items {cfg : Config} {item : InitItem → List MicroOp} (h : ∀ it, xItem cfg it = item it) :
    xInit cfg =
      [.dirOut .e, .dirOut .rs, .dirOut .d4, .dirOut .d5, .dirOut .d6, .dirOut .d7] ++
        [.pin .e false, .pin .rs false, .pin .d4 false, .pin .d5 false, .pin .d6 false, .pin .d7 false] ++
        cfg.initSeq.flatMap item := by
  obtain rfl : xItem cfg = item := funext h
  rfl

/-- Settles O10: the block accepts `X_INIT`, whose items have the lists the statement writes out, one item kind at a
time. -/
theorem initIsAccepted : Obligations.InitIsAccepted := by
  unfold Obligations.InitIsAccepted
  intro x s idle
  refine exec_idle_of_expansion (i := .init x) idle (congrArg some (xInit_eq_of_items fun it => ?_))
  cases it with
  | nib n => rfl
  | cmd b => rfl
  | clr => rfl
  | wait k => rfl

end Sys2Proof.Machine
end

section
/-! PROOF. The latches and pulses of STROBE's and NIBBLE's lists (spec/42_strobe_nibble.md R141, R143 to R145). -/

namespace Sys2Proof.Machine

/-! STROBE. -/

/-- STROBE leaves E low and writes no other role (R141). -/
@[simp] theorem latAfter_xStrobe (cfg : Config) (l : RoleBits) : latAfter (xStrobe cfg) l = setRole l .e false :=
  setRole_setRole l .e true false

/-- RS and the data lines do not depend on the level of E. -/
@[simp] theorem dataNibble_setRole_e (l : RoleBits) (b : Bool) : dataNibble (setRole l .e b) = dataNibble l := by
  revert l
  cases b <;> decide

/-- From E low STROBE makes one pulse, N_PW wide, of the levels it finds, and hands on the latches it found. -/
theorem pulses_xStrobe_append (cfg : Config) (rest : List MicroOp) {l : RoleBits} (h : getRole l .e = false) :
    pulses (xStrobe cfg ++ rest) l = ⟨getRole l .rs, dataNibble l, cfg.nPw⟩ :: pulses rest l := by
  have back : setRole (setRole l .e true) .e false = l := (setRole_setRole ..).trans (setRole_of_getRole h)
  simp [pulses, xStrobe, pulsesFrom, h, back]

/-- From E high the write of 1 makes no edge, so no pulse opens (R140 (b)). -/
theorem pulses_xStrobe_of_high (cfg : Config) {l : RoleBits} (h : getRole l .e = true) :
    pulses (xStrobe cfg) l = [] := by
  simp [pulses, xStrobe, pulsesFrom, h]

/-! NIBBLE. -/

/-- What NIBBLE does before its strobe: the data lines, then RS (R143). -/
def nibbleLines (n : Nibble) (c : Bool) : List MicroOp :=
  [.pin .d4 (n.getLsbD 0), .pin .d5 (n.getLsbD 1), .pin .d6 (n.getLsbD 2), .pin .d7 (n.getLsbD 3), .pin .rs (!c)]

theorem xNibble_eq (cfg : Config) (n : Nibble) (c : Bool) : xNibble cfg n c = nibbleLines n c ++ xStrobe cfg := rfl

/-- The lines carry the nibble whose bit i is on D(4+i) (R144). -/
theorem dataNibble_eq {l : RoleBits} {n : Nibble} (h4 : getRole l .d4 = n.getLsbD 0) (h5 : getRole l .d5 = n.getLsbD 1)
    (h6 : getRole l .d6 = n.getLsbD 2) (h7 : getRole l .d7 = n.getLsbD 3) : dataNibble l = n := by
  have bit (i : Nat) (hi : i < 4) : (dataNibble l).getLsbD i = l.getLsbD i := by simp [dataNibble, hi]
  apply BitVec.eq_of_getLsbD_eq
  intro i hi
  rw [bit i hi]
  interval_cases i <;> assumption

/-- Writing the lines puts the nibble on them (R144). -/
@[simp] theorem dataNibble_nibbleLines (n : Nibble) (c : Bool) (l : RoleBits) :
    dataNibble (latAfter (nibbleLines n c) l) = n := by
  apply dataNibble_eq <;> simp [nibbleLines, latStep]

/-- RS carries NOT c (R145). -/
@[simp] theorem getRole_rs_nibbleLines (n : Nibble) (c : Bool) (l : RoleBits) :
    getRole (latAfter (nibbleLines n c) l) .rs = !c := by
  simp [nibbleLines, latStep]

/-- Writing the lines leaves E alone. -/
@[simp] theorem getRole_e_nibbleLines (n : Nibble) (c : Bool) (l : RoleBits) :
    getRole (latAfter (nibbleLines n c) l) .e = getRole l .e := by
  simp [nibbleLines, latStep]

/-- Writing the lines makes no edge of E. -/
theorem pulses_nibbleLines_append (n : Nibble) (c : Bool) (rest : List MicroOp) (l : RoleBits) :
    pulses (nibbleLines n c ++ rest) l = pulses rest (latAfter (nibbleLines n c) l) := rfl

/-- From E low NIBBLE leaves the lines as it wrote them. -/
theorem latAfter_xNibble (cfg : Config) (n : Nibble) (c : Bool) {l : RoleBits} (h : getRole l .e = false) :
    latAfter (xNibble cfg n c) l = latAfter (nibbleLines n c) l := by
  rw [xNibble_eq, latAfter_append, latAfter_xStrobe, setRole_of_getRole ((getRole_e_nibbleLines n c l).trans h)]

/-- From E low NIBBLE makes one pulse, of RS = NOT c and the nibble (R143 to R145). -/
theorem pulses_xNibble_append (cfg : Config) (n : Nibble) (c : Bool) (rest : List MicroOp) {l : RoleBits}
    (h : getRole l .e = false) :
    pulses (xNibble cfg n c ++ rest) l = ⟨!c, n, cfg.nPw⟩ :: pulses rest (latAfter (xNibble cfg n c) l) := by
  rw [latAfter_xNibble cfg n c h, xNibble_eq, List.append_assoc, pulses_nibbleLines_append,
    pulses_xStrobe_append cfg rest ((getRole_e_nibbleLines n c l).trans h), getRole_rs_nibbleLines,
    dataNibble_nibbleLines]

end Sys2Proof.Machine
end

section
/-! PROOF. The wires while STROBE runs (spec/42_strobe_nibble.md R141; spec/40_sequencer_primitives.md R112). -/

namespace Sys2Proof.Machine

/-- The pins of `t` are those of `s` but for the wire of E, which carries `v`. -/
structure EnableWire (v : Bool) (s t : State) : Prop where
  enable : t.pinOut .e = .driven v
  others : ∀ q, q ≠ .e → t.pinOut q = s.pinOut q

/-- Writing the latch of a driven E moves that wire and no other (R23). -/
theorem enableWire_of_latch {v : Bool} {s t : State} (hout : getRole s.dir .e = false) (hdir : t.dir = s.dir)
    (hlat : t.lat = setRole s.lat .e v) : EnableWire v s t where
  enable := State.pinOut_of_output (hdir ▸ hout) (hlat ▸ getRole_setRole_same ..)
  others q hq := by simp only [State.pinOut, hdir, hlat, getRole_setRole_other _ _ hq]

/-- The state after the tick that raises E, with the rest of STROBE's list and then `rest` pending. -/
def raisedState (rest : List MicroOp) (s : State) : State :=
  executeStep (.pin .e true) ([.dly s.cfg.nPw, .pin .e false] ++ rest) (s.dropInputs 1)

section
variable {s : State} {rest : List MicroOp} (hc : s.cfg.ok = true) (hb : s.busy = true) (hd : s.dly = 0)
  (hp : s.pend = xStrobe s.cfg ++ rest) (hout : getRole s.dir .e = false) (hq : s.quietFor (s.cfg.nPw + 3))
include hc hb hd hp hout hq

/-- E is high after the tick of its rise, after the tick that loads N_PW and after the N_PW ticks that count it. -/
theorem run_strobe_high {k : Nat} (hk : 1 ≤ k) (hk' : k ≤ s.cfg.nPw + 2) :
    ∃ u, run k s = .next u ∧ EnableWire true s u := by
  have hrise : run 1 s = .next (raisedState rest s) := run_one (step_execute_quiet hc hb hd hp hq.head)
  by_cases h1 : k = 1
  · subst h1
    exact ⟨_, hrise, enableWire_of_latch hout rfl rfl⟩
  · obtain ⟨j, rfl⟩ : ∃ j, k = 1 + (1 + j) := ⟨k - 2, by omega⟩
    have hquiet : (raisedState rest s).quietFor (j + 1) := State.quietFor.drop (a := 1) (hq.mono (by omega)) rfl
    have hcount := run_dly (s := raisedState rest s) (k := j) hc hb hd rfl (by omega) hquiet
    exact ⟨_, (run_add _ hrise).trans hcount, enableWire_of_latch hout rfl rfl⟩

/-- The next tick lowers E, and nothing of STROBE is left. -/
theorem run_strobe_fall :
    ∃ u, run (s.cfg.nPw + 3) s = .next u ∧ EnableWire false s u ∧ u.pend = rest ∧ u.dly = 0 := by
  have hticks : s.cfg.nPw + 3 = (xStrobe s.cfg).length + delaySum (xStrobe s.cfg) := by simp [Nat.add_comm]
  rw [hticks] at hq ⊢
  exact ⟨_, run_pending _ rest hc hb hd hp hq, enableWire_of_latch hout rfl (latAfter_xStrobe ..), rfl, rfl⟩

end

end Sys2Proof.Machine
end

section
/-! PROOF. The statements about STROBE and NIBBLE (spec/42_strobe_nibble.md R141, R143, R145). -/

namespace Sys2Proof.Machine

/-- Settles O48: the pulses are those of `X_STROBE` by the level of E it starts from, and the wire is high through
`run_strobe_high`'s ticks until `run_strobe_fall`'s. -/
theorem strobeHoldsEnableHigh : Obligations.StrobeHoldsEnableHigh := by
  unfold Obligations.StrobeHoldsEnableHigh
  refine ⟨fun _ => rfl, fun cfg l => ⟨fun hlow => ⟨?_, ?_⟩, fun hhigh => ⟨?_, ?_⟩⟩, ?_⟩
  · exact pulses_xStrobe_append cfg [] hlow
  · rw [latAfter_xStrobe, setRole_of_getRole hlow]
  · exact pulses_xStrobe_of_high cfg hhigh
  · exact latAfter_xStrobe cfg l
  · intro s rest hc hb hd hp hlow hout hq
    refine ⟨State.pinOut_of_output hout hlow, fun k hk hk' => ?_, ?_⟩
    · obtain ⟨u, hu, henable, hothers⟩ := run_strobe_high hc hb hd hp hout hq hk hk'
      exact ⟨u, hu, henable, hothers⟩
    · obtain ⟨u, hu, ⟨henable, hothers⟩, hpend, hdly⟩ := run_strobe_fall hc hb hd hp hout hq
      exact ⟨u, hu, henable, hpend, hdly, hothers⟩

/-- Settles O50: the lines are written with E low, the one pulse samples them, and they stay as written. -/
theorem nibbleMakesOnePulse : Obligations.NibbleMakesOnePulse := by
  unfold Obligations.NibbleMakesOnePulse
  intro cfg n c l hlow
  have hpulse : pulses (xNibble cfg n c) l = [⟨!c, n, cfg.nPw⟩] := pulses_xNibble_append cfg n c [] hlow
  rw [latAfter_xNibble cfg n c hlow]
  exact ⟨hpulse, dataNibble_nibbleLines n c l, getRole_rs_nibbleLines n c l,
    (getRole_e_nibbleLines n c l).trans hlow⟩

/-- Settles O12: the idle block accepts NIBBLE's expansion (R104), which is R143's list. -/
theorem nibbleIsAccepted : Obligations.NibbleIsAccepted := by
  unfold Obligations.NibbleIsAccepted
  intro xHigh n xLow c s idle
  exact exec_idle_of_expansion (i := .nibble xHigh n xLow c) idle rfl

end Sys2Proof.Machine
end

section
/-! PROOF. The list and the pulses of a byte transfer (spec/43_byte_transfer.md R155; spec/40_sequencer_primitives.md
R116). -/

namespace Sys2Proof.Machine

/-- The two nibbles hold the byte. -/
theorem highNibble_append_lowNibble (b : Byte) : highNibble b ++ lowNibble b = b :=
  BitVec.extractLsb'_append_extractLsb' (w := 4) (len := 4)

/-- `X_BYTE` micro-op by micro-op, by the bits of the byte (R155). -/
theorem xByte_eq_list (cfg : Config) (b : Byte) (c : Bool) :
    xByte cfg b c =
      [.pin .d4 (b.getLsbD 4), .pin .d5 (b.getLsbD 5), .pin .d6 (b.getLsbD 6), .pin .d7 (b.getLsbD 7),
       .pin .rs (!c), .pin .e true, .dly cfg.nPw, .pin .e false,
       .pin .d4 (b.getLsbD 0), .pin .d5 (b.getLsbD 1), .pin .d6 (b.getLsbD 2), .pin .d7 (b.getLsbD 3),
       .pin .rs (!c), .pin .e true, .dly cfg.nPw, .pin .e false, .dly cfg.nCmd] := by
  simp [xByte, xNibble, xStrobe, highNibble, lowNibble]

/-- The pulses of a byte: the high nibble's, then the low nibble's (R155). -/
def bytePulses (cfg : Config) (b : Byte) (c : Bool) : List Pulse :=
  [⟨!c, highNibble b, cfg.nPw⟩, ⟨!c, lowNibble b, cfg.nPw⟩]

/-- From E low NIBBLE leaves E low for the next. -/
theorem getRole_e_xNibble (cfg : Config) (n : Nibble) (c : Bool) {l : RoleBits} (h : getRole l .e = false) :
    getRole (latAfter (xNibble cfg n c) l) .e = false := by
  rw [latAfter_xNibble cfg n c h, getRole_e_nibbleLines, h]

/-- The latches a byte transfer leaves are those its second nibble leaves: the settle writes none. -/
theorem latAfter_xByte (cfg : Config) (b : Byte) (c : Bool) (l : RoleBits) :
    latAfter (xByte cfg b c) l =
      latAfter (xNibble cfg (lowNibble b) c) (latAfter (xNibble cfg (highNibble b) c) l) := by
  simp [xByte, latStep]

/-- A delay outside a pulse is part of none. -/
theorem pulses_dly_cons (n : Nat) (rest : List MicroOp) (l : RoleBits) :
    pulses (.dly n :: rest) l = pulses rest l := rfl

/-- From E low a byte transfer makes the pulses of its two nibbles, and the settle makes none. -/
theorem pulses_xByte_append (cfg : Config) (b : Byte) (c : Bool) (rest : List MicroOp) {l : RoleBits}
    (h : getRole l .e = false) :
    pulses (xByte cfg b c ++ rest) l = bytePulses cfg b c ++ pulses rest (latAfter (xByte cfg b c) l) := by
  have hmid := getRole_e_xNibble cfg (highNibble b) c h
  rw [latAfter_xByte, xByte, List.append_assoc, List.append_assoc, pulses_xNibble_append cfg _ c _ h,
    pulses_xNibble_append cfg _ c _ hmid, List.singleton_append, pulses_dly_cons]
  rfl

/-- From E low a byte transfer makes exactly its two pulses. -/
theorem pulses_xByte (cfg : Config) (b : Byte) (c : Bool) {l : RoleBits} (h : getRole l .e = false) :
    pulses (xByte cfg b c) l = bytePulses cfg b c :=
  pulses_xByte_append cfg b c [] h

/-- Two pulses that are a byte's read as the byte (R116). -/
theorem byteOf_of_bytePulses {cfg : Config} {b : Byte} {c : Bool} {p q : Pulse} (h : bytePulses cfg b c = [p, q]) :
    byteOf p q = b := by
  obtain ⟨rfl, rfl⟩ : _ = p ∧ _ = q := by simpa [bytePulses] using h
  exact highNibble_append_lowNibble b

/-- Settles O51: the list is the two nibbles' and the settle's, each nibble makes its pulse and leaves E low for the
next, and the ticks are the list's length and its delays. -/
theorem byteMakesTwoPulses : Obligations.ByteMakesTwoPulses := by
  unfold Obligations.ByteMakesTwoPulses
  intro cfg b c l
  refine ⟨rfl, xByte_eq_list cfg b c, rfl, rfl, fun hlow => ?_, ?_⟩
  · rw [pulses_xByte cfg b c hlow]
    exact ⟨rfl, fun p q => byteOf_of_bytePulses⟩
  · rw [ticksOf, length_xByte, delaySum_xByte]
    omega

end Sys2Proof.Machine
end

section
/-! PROOF. CLEAR's list and acceptance, and the cursor's range check (spec/44_display_ops.md R170, R172, R173). -/

namespace Sys2Proof.Machine

/-- `X_CLEAR` is the two nibbles of the clear command, then the settle of any command and CLEAR's own (R173). -/
theorem xClear_eq_nibbles_settles (cfg : Config) :
    xClear cfg =
      xNibble cfg (highNibble cfg.clearCode) true ++ xNibble cfg (lowNibble cfg.clearCode) true ++
        [.dly cfg.nCmd, .dly cfg.nClr] :=
  List.append_assoc _ _ _

/-- Settles O15: the idle block accepts CLEAR's expansion (R104), whose length and last two loads are `X_CLEAR`'s. -/
theorem clearIsAccepted : Obligations.ClearIsAccepted := by
  unfold Obligations.ClearIsAccepted
  intro x s idle
  exact ⟨exec_idle_of_expansion (i := .clear x) idle rfl, length_xClear s.cfg, _, xClear_eq_nibbles_settles s.cfg⟩

/-- A position within both bounds is kept (R172). -/
theorem cursorPos_of_inRange {cfg : Config} {row col : Byte} (hrow : row.toNat < Config.rows)
    (hcol : col.toNat < cfg.cols) : cursorPos cfg row col = (row.toNat, col.toNat) :=
  if_pos ⟨hrow, hcol⟩

/-- One coordinate out of its bound is enough to replace both (R172). -/
theorem cursorPos_of_outOfRange {cfg : Config} {row col : Byte}
    (h : Config.rows ≤ row.toNat ∨ cfg.cols ≤ col.toNat) :
    cursorPos cfg row col = (Config.defRow, Config.defCol) := by
  refine if_neg fun ⟨hrow, hcol⟩ => ?_
  rcases h with h | h
  · exact h.not_gt hrow
  · exact h.not_gt hcol

/-- Settles O56: the range check by its two outcomes, ROWS being 2 and the default position (1, 0). -/
theorem cursorRangeCheck : Obligations.CursorRangeCheck := by
  unfold Obligations.CursorRangeCheck
  intro cfg row col
  exact ⟨cursorPos_of_inRange, fun hrow => cursorPos_of_outOfRange (.inl hrow),
    fun hcol => cursorPos_of_outOfRange (.inr hcol)⟩

end Sys2Proof.Machine
end

section
/-! PROOF. The reset tick (spec/70_reset_and_hazards.md R220, R224). -/

namespace Sys2Proof.Machine

/-- A reset tick leaves the state of R36 over the configuration, the string space with the host's stores of the tick,
and the inputs still waiting; no register of the state before it is left (R220, R224). -/
theorem step_reset_eq_resetWith {s : State} (hc : s.cfg.ok = true) (hr : s.input.reset = true) :
    step s = .next (State.resetWith s.cfg (s.mem.writeAll s.input.stores) s.inputs.tail) :=
  step_of_reset hc hr

/-- After reset the block is idle: a tick with neither reset nor command only takes its input (R104, R220). -/
theorem step_resetWith_of_noCommand {cfg : Config} {m : Memory} {ins : List TickInput} (hc : cfg.ok = true)
    (hr : (State.resetWith cfg m ins).input.reset = false)
    (hv : (State.resetWith cfg m ins).input.cmdValid = false) :
    step (State.resetWith cfg m ins) = .next (State.resetWith cfg m ins).takeInput := by
  have idle : (State.resetWith cfg m ins).busy = false := rfl
  exact step_of_idle hc hr idle hv

/-- Settles O26: the reset tick answers `State.resetWith`, whose fields are the reset values, whose wires are all
undriven, and which is idle. -/
theorem resetWinsOverEverything : Obligations.ResetWinsOverEverything := by
  unfold Obligations.ResetWinsOverEverything
  intro s hc hr
  refine ⟨_, step_reset_eq_resetWith hc hr, rfl, rfl, rfl, rfl, rfl, rfl, rfl, rfl, rfl, rfl, rfl, rfl, ?pins, rfl, rfl,
    rfl, ?quiet⟩
  case pins => exact State.pinOut_resetWith s.cfg _ _
  case quiet => exact step_resetWith_of_noCommand hc

end Sys2Proof.Machine
end

section
/-! PROOF. Decoding and encoding undo each other, and the decoder by the value of OP (spec/30_encoding.md R70, R79 to
R83). -/

namespace Sys2Proof

/-- The internal operations are the two the strap guards (R79, R81). -/
theorem isInternal_iff_opcode (i : Instr) : i.isInternal = true ↔ i.opcode.toNat = 1 ∨ i.opcode.toNat = 2 := by
  cases i <;> simp [Instr.isInternal, Instr.opcode]

/-- Where an instruction is well formed its opcode selects it, and nowhere else (R81, R83). -/
theorem selectedBy_opcode_iff (e : Bool) (i : Instr) :
    selectedBy e (0#5 ++ i.opcode) = .ok i.opcode ↔ i.wellFormed e = true := by
  have hlt : ¬ 8 ≤ i.opcode.toNat := Nat.not_le.mpr i.opcode.isLt
  have hint := isInternal_iff_opcode i
  cases e with
  | true => simp [selectedBy, hlt, Instr.wellFormed]
  | false => simp [selectedBy, hlt, Instr.wellFormed, ← Bool.not_eq_true, hint]

/-- A word is its three fields (R70). -/
theorem fields_append (w : CmdWord) : opField w ++ a0Field w ++ a1Field w = w := by
  have hop : opField w ++ a0Field w = w.extractLsb' 8 16 :=
    BitVec.extractLsb'_append_extractLsb'_eq_extractLsb' (start₁ := 8) (len₁ := 8) (len₂ := 8) rfl
  rw [hop]
  exact BitVec.extractLsb'_append_extractLsb' (w := 16) (len := 8)

/-- Settles O1: the encoded word's OP selects the instruction's opcode, and reading the operands back by that opcode
gives the instruction (`read_encode`). -/
theorem decodeOfEncode : Obligations.DecodeOfEncode := by
  unfold Obligations.DecodeOfEncode
  intro e i hwf
  obtain ⟨hop, -, -⟩ := encodeFields i
  refine decode_eq_op.mpr ⟨?_, read_encode i⟩
  rw [hop]
  exact (selectedBy_opcode_iff e i).mpr hwf

/-- Settles O2: a decoded instruction holds OP and both operand bytes of its word, so encoding it puts the same three
fields together. -/
theorem encodeOfDecode : Obligations.EncodeOfDecode := by
  unfold Obligations.EncodeOfDecode
  intro e w i h
  obtain ⟨hsel, -⟩ := decode_eq_op.mp h
  have hop := eq_of_selectedBy hsel
  obtain ⟨-, hbytes⟩ := fields_of_decode h
  constructor
  · rw [encode, hbytes, ← hop]
    exact fields_append w
  · rw [hop] at hsel
    exact (selectedBy_opcode_iff e i).mp hsel

/-- Comparing a byte with a literal is comparing its value. -/
theorem byte_eq_ofNat_iff (b : Byte) {n : Nat} (h : n < 256) : b = BitVec.ofNat 8 n ↔ b.toNat = n := by
  rw [← BitVec.toNat_inj, BitVec.toNat_ofNat, Nat.mod_eq_of_lt h]

/-- Settles O3: the decoder's branches by the value of OP are the statement's chain of comparisons. -/
theorem decoderFollowsTheRule : Obligations.DecoderFollowsTheRule := by
  unfold Obligations.DecoderFollowsTheRule
  intro e w
  have hop (n : Nat) (h : n < 256) : w.extractLsb' 16 8 = BitVec.ofNat 8 n ↔ (opField w).toNat = n :=
    byte_eq_ofNat_iff _ h
  simp only [hop 0 (by decide), hop 1 (by decide), hop 2 (by decide), hop 3 (by decide), hop 4 (by decide),
    hop 5 (by decide), hop 6 (by decide), hop 7 (by decide)]
  unfold decode
  split
  case h_9 h0 h1 h2 h3 h4 h5 h6 h7 =>
    simp only [imp_false] at *
    simp only [h0, h1, h2, h3, h4, h5, h6, h7, if_false]
  all_goals next h => simp [h]

/-- Settles O5: twelve closed words, decoded by evaluation. -/
theorem vectorWordsDecode : Obligations.VectorWordsDecode := by
  unfold Obligations.VectorWordsDecode
  decide

end Sys2Proof
end

section
/-! PROOF. Acceptance: what it writes, what it leaves, and the operations' lists at acceptance
(spec/40_sequencer_primitives.md R104; spec/42_strobe_nibble.md R141; spec/43_byte_transfer.md R152, R155;
spec/44_display_ops.md R174). -/

namespace Sys2Proof.Machine

/-- Settles O11: the idle block accepts STROBE's expansion, which is R141's list. -/
theorem strobeIsAccepted : Obligations.StrobeIsAccepted := by
  unfold Obligations.StrobeIsAccepted
  intro x s idle
  exact exec_idle_of_expansion (i := .strobe x) idle rfl

/-- Settles O13: the idle block accepts the expansions of WCMD and WCHR, which are R155's list for c = 1 and c = 0. -/
theorem byteTransfersAreAccepted : Obligations.ByteTransfersAreAccepted := by
  unfold Obligations.ByteTransfersAreAccepted
  intro b x s idle
  constructor
  · exact exec_idle_of_expansion (i := .wcmd b x) idle (congrArg some (xByte_eq_list s.cfg b true))
  · exact exec_idle_of_expansion (i := .wchr b x) idle (congrArg some (xByte_eq_list s.cfg b false))

/-- Settles O14: WSTR's acceptance in an idle block. -/
theorem wstrIsAccepted : Obligations.WstrIsAccepted := by
  unfold Obligations.WstrIsAccepted
  intro ptr s idle
  exact acceptString_idle ptr idle

/-- The command byte of SETCUR with the range check of R172 inside the address (R174, R175). -/
theorem setCursorByte_eq_ite (cfg : Config) (row col : Byte) :
    setCursorByte cfg row col = cfg.setAddrBase |||
      BitVec.ofNat 8 (if row.toNat < 2 ∧ col.toNat < cfg.cols then row.toNat * cfg.rowOffset + col.toNat
        else 1 * cfg.rowOffset + 0) := by
  unfold setCursorByte cursorPos ddramAddr
  congr 2
  exact (apply_ite (fun p : Nat × Nat => p.1 * cfg.rowOffset + p.2) ..)

/-- Settles O16: the idle block accepts `X_WCMD` of the set-address byte. -/
theorem setcurIsAccepted : Obligations.SetcurIsAccepted := by
  unfold Obligations.SetcurIsAccepted
  intro row col s idle
  exact exec_idle_of_expansion (i := .setcur row col) idle
    (congrArg (fun b => some (xWcmd s.cfg b)) (setCursorByte_eq_ite s.cfg row col))

/-- Settles O17: what acceptance answers is the old state with the accepting registers replaced. -/
theorem acceptanceFrame : Obligations.AcceptanceFrame := by
  unfold Obligations.AcceptanceFrame
  intro i s t h
  cases exec_cases h with
  | list x idle hx ht =>
    subst ht
    exact ⟨rfl, rfl, rfl, rfl, rfl, rfl, rfl, fun _ => rfl, fun _ => rfl, fun _ => rfl⟩
  | string ptr idle hi ht =>
    subst ht
    exact ⟨rfl, rfl, rfl, rfl, rfl, rfl, rfl, fun _ => rfl, fun _ => rfl, fun hne => absurd hi (hne ptr)⟩

/-- In an idle block every operation is accepted: BUSY rises and OPC holds its opcode (R104). -/
theorem exec_idle_busy (i : Instr) {s : State} (idle : s.busy = false) :
    ∃ t, exec i s = .next t ∧ t.busy = true ∧ t.opc = i.opcode := by
  obtain ⟨t, ht, hopc, -, -⟩ := exec_idle_latches i idle
  refine ⟨t, ht, ?_, hopc⟩
  cases exec_cases ht with
  | list x idle hx ht => rw [ht]; rfl
  | string ptr idle hi ht => rw [ht]; rfl

/-! The internal operations at the command port (R81). -/

/-- Which words the strap decides about. -/
theorem internal_op_iff (op : Byte) : (op = 0x01#8 ∨ op = 0x02#8) ↔ op.toNat = 1 ∨ op.toNat = 2 :=
  or_congr (byte_eq_ofNat_iff op (by decide)) (byte_eq_ofNat_iff op (by decide))

/-- Settles O7: the strap decides what OP 0x01 and 0x02 select; the lists of a byte transfer are built of the two
blocks. -/
theorem internalOpcodesNeedTheStrap : Obligations.InternalOpcodesNeedTheStrap := by
  unfold Obligations.InternalOpcodesNeedTheStrap
  refine ⟨?_, fun cfg b c => ⟨rfl, _, xNibble_eq cfg (lowNibble b) c⟩⟩
  intro s hc hr hb hv hop
  have hop : (opField s.input.cmdWord).toNat = 1 ∨ (opField s.input.cmdWord).toNat = 2 := (internal_op_iff _).mp hop
  constructor
  · intro he
    have hlow : ¬ 8 ≤ (opField s.input.cmdWord).toNat := by omega
    have hi : decode s.cfg.exposeInternal s.input.cmdWord = .ignored .internalNotExposed :=
      decode_eq_ignored.mpr (by simp [selectedBy, hlow, he, hop])
    exact ⟨s.takeInput, step_of_ignored hc hr hb hi, sameRegisters_takeInput s, ports_takeInput hb⟩
  · intro he
    obtain ⟨c, hc1, hc2⟩ : ∃ c : BitVec 3, opField s.input.cmdWord = 0#5 ++ c ∧ (c.toNat = 1 ∨ c.toNat = 2) := by
      rcases hop with h | h
      · exact ⟨1, BitVec.eq_of_toNat_eq h, .inl rfl⟩
      · exact ⟨2, BitVec.eq_of_toNat_eq h, .inr rfl⟩
    obtain ⟨i, hi, rfl⟩ := exists_decode_eq_op.mpr (selectedBy_true.mpr hc1)
    obtain ⟨t, ht, hbusy, -⟩ := exec_idle_busy i (s := s.takeInput) hb
    exact ⟨i, t, (isInternal_iff_opcode i).mpr hc2, hi, ht,
      (step_of_op hc hr hb hv (he ▸ hi)).trans ht, hbusy⟩

end Sys2Proof.Machine
end

section
/-! PROOF. A placed word is run by the next step (log entry 14). -/

namespace Sys2Proof.Machine

/-- With the internal operations exposed, and only for the internal opcodes needed so, a word decodes as the table's
words do. -/
theorem decode_of_decode_true {w : CmdWord} {i : Instr} (h : decode true w = .op i) (e : Bool) :
    decode (e || opField w == 1 || opField w == 2) w = .op i := by
  obtain ⟨hsel, hread⟩ := decode_eq_op.mp h
  have hop := eq_of_selectedBy hsel
  refine decode_eq_op.mpr ⟨?_, hread⟩
  rw [hop]
  refine (selectedBy_opcode_iff _ i).mpr ?_
  cases hint : i.isInternal with
  | false => simp [Instr.wellFormed, hint]
  | true =>
    have hn := (isInternal_iff_opcode i).mp hint
    rw [← toNat_zero_append, ← internal_op_iff] at hn
    rcases hn with hn | hn <;> simp [Instr.wellFormed, hint, hn]

/-- A table word decodes with the strap set. -/
theorem decode_of_decodeTableWord {nbits w : Nat} {i : Instr} (h : decodeTableWord nbits w = some i) :
    decode true (BitVec.ofNat 24 w) = .op i := by
  unfold decodeTableWord at h
  split at h
  · split at h
    · next hi =>
      injection h with h
      rw [hi, h]
    · cases h
  · cases h

/-- The strap is no part of what makes a configuration one of this hardware (R5). -/
theorem ok_exposeInternal (cfg : Config) (e : Bool) : { cfg with exposeInternal := e }.ok = cfg.ok := rfl

/-- Settles O19: `step_of_op` for the presented word; a placed word is the presented word of an idle state whose strap
admits it. -/
theorem stepRunsTheDecodedInstruction : Obligations.StepRunsTheDecodedInstruction := by
  unfold Obligations.StepRunsTheDecodedInstruction
  refine ⟨fun s i hc hr hb hv hi => step_of_op hc hr hb hv hi, ?_⟩
  intro s nbits w i hc hw
  have hstep : step (s.withFetchWord nbits w) = exec i (s.withFetchWord nbits w).takeInput :=
    step_of_op ((ok_exposeInternal ..).trans hc) rfl rfl rfl (decode_of_decode_true (decode_of_decodeTableWord hw) _)
  obtain ⟨t, ht, hbusy, hopc⟩ := exec_idle_busy i (s := (s.withFetchWord nbits w).takeInput) rfl
  exact ⟨hstep, t, hstep.trans ht, hbusy, hopc⟩

end Sys2Proof.Machine
end

section
/-! PROOF. The cursor's address and command byte (spec/44_display_ops.md R171, R172, R174, R175). -/

namespace Sys2Proof.Machine

/-- What `Config.geometryOk` says, by name (R5 rows COLS, ROW_OFFSET, SETADDR_BASE). -/
structure Geometry (cfg : Config) : Prop where
  cols : 4 ≤ cfg.cols
  offset : cfg.cols ≤ cfg.rowOffset
  last : cfg.rowOffset + cfg.cols ≤ 0x80
  base : cfg.setAddrBase &&& 0x7F#8 = 0#8

theorem geometry_of_ok {cfg : Config} (h : cfg.ok = true) : Geometry cfg := by
  simp only [Config.ok, Config.geometryOk, Config.rows, Nat.reduceSub, Nat.one_mul, Bool.and_eq_true,
    decide_eq_true_eq, beq_iff_eq] at h
  obtain ⟨⟨⟨-, ⟨⟨⟨hcols, -⟩, hoffset⟩, hlast⟩, hbase⟩, -⟩, -⟩ := h
  exact ⟨hcols, hoffset, by omega, hbase⟩

/-- The command byte of the default position stands for that of every position out of range (R172). -/
theorem setCursorByte_of_outOfRange {cfg : Config} (hg : Geometry cfg) {row col : Byte}
    (h : Config.rows ≤ row.toNat ∨ cfg.cols ≤ col.toNat) : setCursorByte cfg row col = setCursorByte cfg 1 0 := by
  have hcols := hg.cols
  have hdef : cursorPos cfg 1 0 = (Config.defRow, Config.defCol) :=
    cursorPos_of_inRange (by decide) (show 0 < cfg.cols by omega)
  simp only [setCursorByte, cursorPos_of_outOfRange h, hdef]

/-- Settles O57: both acceptances list the same command byte, and the operand latches are all that tells them apart. -/
theorem outOfRangeCursorIsTheDefault : Obligations.OutOfRangeCursorIsTheDefault := by
  unfold Obligations.OutOfRangeCursorIsTheDefault
  intro s t u row col hc hout ht hu
  have hbyte := setCursorByte_of_outOfRange (geometry_of_ok hc) hout
  cases exec_cases ht with
  | string ptr idle hi _ => cases hi
  | list x idle hx htx =>
    rw [exec_idle_of_expansion (i := .setcur 1 0) idle rfl] at hu
    injection hu with hu
    obtain rfl : xSetcur s.cfg row col = x := Option.some.inj hx
    have hlist : xSetcur s.cfg row col = xSetcur s.cfg 1 0 := congrArg (xWcmd s.cfg) hbyte
    subst htx hu
    exact ⟨hlist, by simp only [acceptedState, hlist, Instr.opcode, Instr.operandBytes, formatRC]⟩

/-- A position in range has an address below 0x80 (R175). -/
theorem ddramAddr_lt {cfg : Config} (hg : Geometry cfg) {row col : Nat} (hrow : row < 2) (hcol : col < cfg.cols) :
    ddramAddr cfg row col < 0x80 := by
  have hle : row * cfg.rowOffset ≤ 1 * cfg.rowOffset := Nat.mul_le_mul_right _ (by omega)
  have hlast := hg.last
  unfold ddramAddr
  omega

/-- A byte whose low seven bits are 0 has at most the eighth. -/
theorem le_of_lowBits_zero : ∀ b : Byte, b &&& 0x7F#8 = 0#8 → b.toNat ≤ 0x80 := by decide

/-- SETADDR_BASE has none of the low seven bits, so OR with a seven-bit address is addition (R174). -/
theorem setAddrBase_or_toNat {cfg : Config} (hg : Geometry cfg) {a : Nat} (ha : a < 0x80) :
    (cfg.setAddrBase ||| BitVec.ofNat 8 a).toNat = cfg.setAddrBase.toNat + a := by
  have hbase := hg.base
  generalize cfg.setAddrBase = base at hbase
  have hlow : BitVec.ofNat 8 a = 0x7F#8 &&& BitVec.ofNat 8 a := by
    apply BitVec.eq_of_toNat_eq
    rw [BitVec.toNat_and, BitVec.toNat_ofNat, Nat.and_comm, show (0x7F#8).toNat = 2 ^ 7 - 1 from rfl,
      Nat.and_two_pow_sub_one_eq_mod]
    omega
  have hdisjoint : base &&& BitVec.ofNat 8 a = 0#8 := by rw [hlow, ← BitVec.and_assoc, hbase, BitVec.zero_and]
  have hsmall := le_of_lowBits_zero base hbase
  rw [← BitVec.add_eq_or_of_and_eq_zero _ _ hdisjoint, BitVec.toNat_add, BitVec.toNat_ofNat]
  omega

/-- The command byte of a position in range is the sum of the base and the address (R174). -/
theorem setCursorByte_toNat {cfg : Config} (hg : Geometry cfg) {row col : Byte} (hrow : row.toNat < 2)
    (hcol : col.toNat < cfg.cols) :
    (setCursorByte cfg row col).toNat = cfg.setAddrBase.toNat + ddramAddr cfg row.toNat col.toNat := by
  rw [setCursorByte, cursorPos_of_inRange hrow hcol]
  exact setAddrBase_or_toNat hg (ddramAddr_lt hg hrow hcol)

/-- Settles O58: an address in range has seven bits, so the command byte is a sum, and two sums of one column differ by
the row's offset, which is not 0. -/
theorem cursorAddressArithmetic : Obligations.CursorAddressArithmetic := by
  unfold Obligations.CursorAddressArithmetic
  intro cfg row col hc hrow hcol
  have hg := geometry_of_ok hc
  have hrows : ddramAddr cfg 1 col.toNat = ddramAddr cfg 0 col.toNat + cfg.rowOffset := by
    simp [ddramAddr, Nat.add_comm]
  have hbytes : (setCursorByte cfg 1 col).toNat = (setCursorByte cfg 0 col).toNat + cfg.rowOffset := by
    rw [setCursorByte_toNat hg (row := 1) (by decide) hcol, setCursorByte_toNat hg (row := 0) (by decide) hcol,
      Nat.add_assoc]
    exact congrArg (cfg.setAddrBase.toNat + ·) hrows
  refine ⟨rfl, ddramAddr_lt hg hrow hcol, setCursorByte_toNat hg hrow hcol, hrows, hbytes, fun heq => ?_⟩
  have hcols := hg.cols
  have hoffset := hg.offset
  rw [heq] at hbytes
  omega

end Sys2Proof.Machine
end

section
/-! PROOF. The tick counts of the operations (spec/70_reset_and_hazards.md R234). -/

namespace Sys2Proof.Machine

/-- A string's list has seventeen micro-ops for each byte (R154). -/
@[simp] theorem length_xWstr (cfg : Config) (bs : List Byte) : (xWstr cfg bs).length = 17 * bs.length := by
  simp [xWstr, List.length_flatMap, Nat.mul_comm]

/-- A string's list loads what each byte's transfer loads (R154, R234). -/
@[simp] theorem delaySum_xWstr (cfg : Config) (bs : List Byte) :
    delaySum (xWstr cfg bs) = bs.length * (2 * cfg.nPw + cfg.nCmd) := by
  induction bs with
  | nil => simp [xWstr]
  | cons b rest ih =>
    have hcons : xWstr cfg (b :: rest) = xWchr cfg b ++ xWstr cfg rest := List.flatMap_cons
    rw [hcons, delaySum_append, ih, delaySum_xWchr, List.length_cons]
    ring

/-- Settles O59: the lengths and delay sums of the lists, added up. -/
theorem tickCountsOfTheOperations : Obligations.TickCountsOfTheOperations := by
  unfold Obligations.TickCountsOfTheOperations
  intro cfg n c b row col bs
  refine ⟨?_, ?_, ?_, ?_, ?_, ?_, ?_⟩
  · rw [ticksOf, length_xStrobe, delaySum_xStrobe]; omega
  · rw [ticksOf, length_xNibble, delaySum_xNibble]; omega
  · rw [ticksOf, length_xWcmd, delaySum_xWcmd]; omega
  · rw [ticksOf, length_xWchr, delaySum_xWchr]; omega
  · rw [ticksOf, length_xSetcur, delaySum_xSetcur]; omega
  · rw [ticksOf, length_xClear, delaySum_xClear]; omega
  · rw [ticksOf, length_xWstr, delaySum_xWstr]; omega

end Sys2Proof.Machine
end

section
/-! PROOF. The shape of every expansion and of every string's list (spec/40_sequencer_primitives.md R115). -/

namespace Sys2Proof.Machine

/-- A list in which every rise of E is the first of the three micro-ops of a pulse N_PW wide (R115 (a)). -/
inductive Shaped (cfg : Config) : List MicroOp → Prop where
  | nil : Shaped cfg []
  | other {m : MicroOp} {xs : List MicroOp} (hm : m ≠ .pin .e true) (hxs : Shaped cfg xs) : Shaped cfg (m :: xs)
  | pulse {xs : List MicroOp} (hxs : Shaped cfg xs) : Shaped cfg (.pin .e true :: .dly cfg.nPw :: .pin .e false :: xs)

theorem Shaped.append {cfg : Config} {xs ys : List MicroOp} (hx : Shaped cfg xs) (hy : Shaped cfg ys) :
    Shaped cfg (xs ++ ys) := by
  induction hx with
  | nil => exact hy
  | other hm _ ih => exact .other hm ih
  | pulse _ ih => exact .pulse ih

/-- A list that never raises E has the shape. -/
theorem Shaped.of_no_rise {cfg : Config} {xs : List MicroOp} (h : MicroOp.pin .e true ∉ xs) : Shaped cfg xs := by
  induction xs with
  | nil => exact .nil
  | cons m rest ih =>
    obtain ⟨hm, hrest⟩ := not_or.mp (mt List.mem_cons.mpr h)
    exact .other (Ne.symm hm) (ih hrest)

theorem Shaped.flatMap {α : Type} {cfg : Config} {f : α → List MicroOp} (h : ∀ a, Shaped cfg (f a)) (as : List α) :
    Shaped cfg (as.flatMap f) := by
  induction as with
  | nil => exact .nil
  | cons a rest ih => exact List.flatMap_cons ▸ (h a).append ih

/-! What the shape gives. -/

/-- R115 (a). -/
theorem Shaped.after_rise {cfg : Config} {x : List MicroOp} (h : Shaped cfg x) :
    ∀ pre post, x = pre ++ .pin .e true :: post → ∃ post', post = .dly cfg.nPw :: .pin .e false :: post' := by
  induction h with
  | nil => intro pre post hx; simp at hx
  | @other m xs hm _ ih =>
    intro pre post hx
    cases pre with
    | nil => exact absurd (List.cons.inj hx).1 hm
    | cons a pre => exact ih pre post (List.cons.inj hx).2
  | @pulse xs _ ih =>
    intro pre post hx
    match pre, hx with
    | [], hx => exact ⟨xs, (List.cons.inj hx).2.symm⟩
    | [_], hx => simp at hx
    | [_, _], hx => simp at hx
    | _ :: _ :: _ :: pre, hx => exact ih pre post (List.cons.inj (List.cons.inj (List.cons.inj hx).2).2).2

/-- R115 (b): between a rise of E and the fall after it stands the delay alone. -/
theorem Shaped.within_pulse {cfg : Config} {x pre mid post : List MicroOp} (h : Shaped cfg x)
    (hx : x = pre ++ .pin .e true :: mid ++ .pin .e false :: post) (hmid : ∀ v, MicroOp.pin .e v ∉ mid) :
    mid = [.dly cfg.nPw] := by
  obtain ⟨post', hpost⟩ := h.after_rise pre (mid ++ .pin .e false :: post) (by simpa using hx)
  match mid, hpost, hmid with
  | [], hpost, _ => simp at hpost
  | [m], hpost, _ => rw [(List.cons.inj hpost).1]
  | m :: n :: mid, hpost, hmid =>
    have hn : n = .pin .e false := (List.cons.inj (List.cons.inj hpost).2).1
    exact absurd (by simp [hn]) (hmid false)

/-- A micro-op that does not raise E leaves it low. -/
theorem getRole_e_latStep {m : MicroOp} (hm : m ≠ .pin .e true) {l : RoleBits} (h : getRole l .e = false) :
    getRole (latStep l m) .e = false := by
  cases m with
  | dirOut p => exact h
  | dly n => exact h
  | pin p v =>
    rw [latStep, getRole_setRole]
    split
    · next hp =>
      subst hp
      simpa using hm
    · exact h

/-- R115 (c). -/
theorem Shaped.eLow {cfg : Config} {x : List MicroOp} (h : Shaped cfg x) {l : RoleBits} (hl : getRole l .e = false) :
    getRole (latAfter x l) .e = false := by
  induction h generalizing l with
  | nil => exact hl
  | other hm _ ih => exact ih (getRole_e_latStep hm hl)
  | pulse _ ih => exact ih (getRole_setRole_same ..)

/-- With no pulse open, a micro-op that does not raise E opens none and closes none. -/
theorem pulses_cons_of_no_rise {m : MicroOp} (hm : m ≠ .pin .e true) (rest : List MicroOp) (l : RoleBits) :
    pulses (m :: rest) l = pulses rest (latStep l m) := by
  cases m with
  | dirOut p => rfl
  | dly n => rfl
  | pin p v =>
    cases p with
    | e => cases v with
      | true => exact absurd rfl hm
      | false => rfl
    | rs | d4 | d5 | d6 | d7 => rfl

/-- R115 (d): every pulse is N_PW wide; a rise from E high opens none. -/
theorem Shaped.pulse_width {cfg : Config} {x : List MicroOp} (h : Shaped cfg x) (l : RoleBits) :
    ∀ p ∈ pulses x l, p.width = cfg.nPw := by
  induction h generalizing l with
  | nil => intro p hp; cases hp
  | other hm _ ih => rw [pulses_cons_of_no_rise hm]; exact ih _
  | @pulse xs _ ih =>
    have hx : .pin .e true :: .dly cfg.nPw :: .pin .e false :: xs = xStrobe cfg ++ xs := rfl
    cases hl : getRole l .e with
    | false =>
      rw [hx, pulses_xStrobe_append _ xs hl]
      intro p hp
      rcases List.mem_cons.mp hp with rfl | hp
      · rfl
      · exact ih l p hp
    | true =>
      have hrest : pulses (.pin .e true :: .dly cfg.nPw :: .pin .e false :: xs) l = pulses xs (setRole l .e false) := by
        simp [pulses, pulsesFrom, hl]
      rw [hrest]
      exact ih _

/-! The lists of the model have the shape. -/

theorem shaped_xStrobe (cfg : Config) : Shaped cfg (xStrobe cfg) := .pulse .nil

theorem shaped_xNibble (cfg : Config) (n : Nibble) (c : Bool) : Shaped cfg (xNibble cfg n c) :=
  (Shaped.of_no_rise (xs := nibbleLines n c) (by simp [nibbleLines])).append (shaped_xStrobe cfg)

theorem shaped_dly (cfg : Config) (n : Nat) : Shaped cfg [.dly n] := Shaped.of_no_rise (by simp)

theorem shaped_xByte (cfg : Config) (b : Byte) (c : Bool) : Shaped cfg (xByte cfg b c) :=
  ((shaped_xNibble cfg _ c).append (shaped_xNibble cfg _ c)).append (shaped_dly ..)

theorem shaped_xClear (cfg : Config) : Shaped cfg (xClear cfg) := (shaped_xByte cfg _ true).append (shaped_dly ..)

theorem shaped_xItem (cfg : Config) (i : InitItem) : Shaped cfg (xItem cfg i) := by
  cases i with
  | nib n => exact shaped_xNibble cfg n true
  | cmd b => exact shaped_xByte cfg b true
  | clr => exact shaped_xClear cfg
  | wait k => exact shaped_dly ..

theorem shaped_xInit (cfg : Config) : Shaped cfg (xInit cfg) :=
  (Shaped.of_no_rise (by simp [Role.initOrder])).append (Shaped.flatMap (shaped_xItem cfg) cfg.initSeq)

theorem shaped_xWstr (cfg : Config) (bs : List Byte) : Shaped cfg (xWstr cfg bs) :=
  Shaped.flatMap (fun b => shaped_xByte cfg b false) bs

theorem shaped_of_expansion {cfg : Config} {i : Instr} {x : List MicroOp} (h : expansion cfg i = some x) :
    Shaped cfg x := by
  cases i <;> simp only [expansion, Option.some.injEq, reduceCtorEq] at h <;> subst h
  case init => exact shaped_xInit cfg
  case strobe => exact shaped_xStrobe cfg
  case nibble n _ c => exact shaped_xNibble cfg n c
  case wcmd b _ => exact shaped_xByte cfg b true
  case wchr b _ => exact shaped_xByte cfg b false
  case clear => exact shaped_xClear cfg
  case setcur row col => exact shaped_xByte cfg _ true

/-- Settles O49: every list of the statement has the shape, and the shape gives the five clauses; INIT's first pins are
what leaves E low from any latches. -/
theorem expansionsKeepTheirShape : Obligations.ExpansionsKeepTheirShape := by
  unfold Obligations.ExpansionsKeepTheirShape
  intro cfg x hc hlist
  have hx : Shaped cfg x := by
    rcases hlist with ⟨i, hi⟩ | ⟨bs, rfl⟩
    · exact shaped_of_expansion hi
    · exact shaped_xWstr cfg bs
  refine ⟨hx.after_rise, ?_, fun l => hx.eLow, ?_, hx.pulse_width⟩
  · intro pre mid post heq hmid q v
    rw [hx.within_pulse heq hmid]
    simp
  · rintro rfl l
    exact eLow_xInit (loads_of_ok hc) l

end Sys2Proof.Machine
end

section
/-! PROOF. The pulses of strings, of CLEAR and of the default INIT, and what the controller receives of a list
(spec/40_sequencer_primitives.md R114, R116; spec/41_initialize.md R132; spec/44_display_ops.md R170). -/

namespace Sys2Proof.Machine

/-- Settles O52: byte by byte, a transfer makes its two pulses and leaves E low for the next. -/
theorem stringMakesItsCharactersPulses : Obligations.StringMakesItsCharactersPulses := by
  unfold Obligations.StringMakesItsCharactersPulses
  intro cfg bs l hl
  have hpulses : pulses (xWstr cfg bs) l = bs.flatMap (fun b => bytePulses cfg b false) := by
    induction bs generalizing l with
    | nil => rfl
    | cons b rest ih =>
      have hcons : xWstr cfg (b :: rest) = xByte cfg b false ++ xWstr cfg rest := List.flatMap_cons
      rw [hcons, pulses_xByte_append cfg b false _ hl, ih _ ((shaped_xByte cfg b false).eLow hl), List.flatMap_cons]
  refine ⟨hpulses, ?_⟩
  rw [hpulses, List.length_flatMap]
  simp [bytePulses, Nat.mul_comm]

/-- Settles O53: the extra settle opens no pulse, and `Config.ok` makes it at least one tick long. -/
theorem clearSettlesLonger : Obligations.ClearSettlesLonger := by
  unfold Obligations.ClearSettlesLonger
  intro cfg b l hc hl
  have hclr : 1 ≤ cfg.nClr := by
    simp only [Config.ok, Config.timingOk, Bool.and_eq_true, decide_eq_true_eq] at hc
    omega
  refine ⟨?_, ⟨(xWcmd cfg b).take 15, rfl⟩, ⟨(xWcmd cfg cfg.clearCode).take 15, rfl⟩, ?_⟩
  · calc pulses (xClear cfg) l
        = bytePulses cfg cfg.clearCode true ++ pulses [.dly cfg.nClr] (latAfter (xWcmd cfg cfg.clearCode) l) :=
          pulses_xByte_append cfg cfg.clearCode true [.dly cfg.nClr] hl
      _ = pulses (xWcmd cfg cfg.clearCode) l := (pulses_xByte cfg cfg.clearCode true hl).symm
  · simp only [delaySum_cons, delaySum_nil, MicroOp.delay]
    omega

/-- INIT's directions and idle levels make no pulse, and hand on all latches low whatever they were (R131). -/
theorem pulses_xInit (cfg : Config) (l : RoleBits) :
    pulses (xInit cfg) l = pulses (cfg.initSeq.flatMap (xItem cfg)) 0 := by
  rw [← latAfter_initHead l]
  rfl

/-- Settles O54: after its head X_INIT works from all latches low, so one evaluation covers every latch value. -/
theorem defaultInitMakesTwelvePulses : Obligations.DefaultInitMakesTwelvePulses := by
  unfold Obligations.DefaultInitMakesTwelvePulses
  refine ⟨by decide +kernel, by decide +kernel, by decide +kernel, fun l => ?_⟩
  rw [pulses_xInit, latAfter_xInit]
  decide +kernel


/-- A latch other than E opens and closes no pulse (R114). -/
theorem pulsesFrom_pin_other {p : Role} (hp : p ≠ .e) (v : Bool) (rest : List MicroOp) (l : RoleBits)
    (w : Option Nat) : pulsesFrom (.pin p v :: rest) l w = pulsesFrom rest (setRole l p v) w := by
  cases p with
  | e => exact absurd rfl hp
  | rs | d4 | d5 | d6 | d7 => rfl

/-- The same of the controller's walk (R116). -/
theorem receivedFrom_pin_other {p : Role} (hp : p ≠ .e) (v : Bool) (rest : List MicroOp) (l d : RoleBits)
    (w : Option (Nat × Bool)) : receivedFrom (.pin p v :: rest) l d w = receivedFrom rest (setRole l p v) d w := by
  cases p with
  | e => exact absurd rfl hp
  | rs | d4 | d5 | d6 | d7 => rfl

/-- With all roles outputs, a walk whose open pulse counts is R114's walk (R116). -/
theorem receivedFrom_outputs (x : List MicroOp) (l : RoleBits) (w : Option Nat) :
    receivedFrom x l 0 (w.map (·, true)) = pulsesFrom x l w := by
  induction x generalizing l w with
  | nil => rfl
  | cons m rest ih =>
    cases m with
    | dirOut p =>
      have hd : setRole 0 p false = 0 := setRole_zero_false p
      rw [receivedFrom, pulsesFrom, hd, ih]
    | dly n =>
      rw [receivedFrom, pulsesFrom, ← ih]
      cases w <;> rfl
    | pin p v =>
      by_cases hp : p = .e
      · subst hp
        cases v with
        | true =>
          rw [receivedFrom, pulsesFrom, ← ih]
          cases getRole l .e <;> rfl
        | false =>
          cases w with
          | none => exact ih _ none
          | some k => exact congrArg (_ :: ·) (ih _ none)
      · rw [receivedFrom_pin_other hp, pulsesFrom_pin_other hp, ih]

/-- With some role an input that stays one, a walk whose open pulse does not count receives nothing (R116). -/
theorem receivedFrom_input {d : RoleBits} (hd : d ≠ 0) {x : List MicroOp} (hx : ∀ p, MicroOp.dirOut p ∉ x)
    (l : RoleBits) (w : Option Nat) : receivedFrom x l d (w.map (·, false)) = [] := by
  induction x generalizing l w with
  | nil => rfl
  | cons m rest ih =>
    have ih := ih fun p hp => hx p (List.mem_cons_of_mem _ hp)
    cases m with
    | dirOut p => exact absurd (List.mem_cons_self ..) (hx p)
    | dly n =>
      rw [receivedFrom, ← ih l (w.map (· + n))]
      cases w <;> rfl
    | pin p v =>
      by_cases hp : p = .e
      · subst hp
        cases v with
        | true =>
          have hout : (d == 0) = false := beq_eq_false_iff_ne.mpr hd
          rw [receivedFrom, hout, ← ih (setRole l .e true) (if getRole l .e then w else some 0)]
          cases getRole l .e <;> rfl
        | false =>
          cases w with
          | none => exact ih _ none
          | some k => exact ih _ none
      · rw [receivedFrom_pin_other hp, ih]

/-- Settles O55: both walks from no open pulse. -/
theorem controllerReceivesDrivenPulses : Obligations.ControllerReceivesDrivenPulses := by
  unfold Obligations.ControllerReceivesDrivenPulses
  exact ⟨fun x l => receivedFrom_outputs x l none, fun x l d hd hx => receivedFrom_input hd hx l none⟩

end Sys2Proof.Machine
end

section
/-! PROOF. What one step changes, derived from what a step can do: LAT, DIR, DLY, the log, the flags and the string
space (spec/10_state.md R21, R22, R24, R25, R29, R30; spec/40_sequencer_primitives.md R105 to R109). -/

namespace Sys2Proof.Machine

/-- A step of a busy block that no reset overrides is a delay, execute, fetch or completion step. -/
theorem busyCase_of_step {s t : State} (h : step s = .next t) (hr : s.input.reset = false) (hb : s.busy = true) :
    BusyCase s.takeInput t := by
  cases step_cases h with
  | reset hr' ht => rw [hr] at hr'; cases hr'
  | nothing _ hb' _ _ => rw [hb] at hb'; cases hb'
  | accept _ _ hb' _ _ _ => rw [hb] at hb'; cases hb'
  | busy _ _ _ ht => exact ht

/-- The fetch step writes SP and, by the byte it finds, STR or PEND (R107). -/
theorem fetchStep_cases (x : Byte → List MicroOp) (s : State) :
    (s.mem.read s.sp = s.cfg.term ∧ fetchStep x s = { s with sp := s.sp + 1, str := false }) ∨
    (s.mem.read s.sp ≠ s.cfg.term ∧ fetchStep x s = { s with sp := s.sp + 1, pend := x (s.mem.read s.sp) }) := by
  by_cases h : s.mem.read s.sp = s.cfg.term
  · exact .inl ⟨h, fetchStep_term x h⟩
  · exact .inr ⟨h, fetchStep_char x h⟩

/-! The fetch step writes no other register, and neither the configuration, the string space nor the inputs (R107). -/

@[simp] theorem fetchStep_lat (x : Byte → List MicroOp) (s : State) : (fetchStep x s).lat = s.lat := by
  rcases fetchStep_cases x s with ⟨-, h⟩ | ⟨-, h⟩ <;> rw [h]
@[simp] theorem fetchStep_dir (x : Byte → List MicroOp) (s : State) : (fetchStep x s).dir = s.dir := by
  rcases fetchStep_cases x s with ⟨-, h⟩ | ⟨-, h⟩ <;> rw [h]
@[simp] theorem fetchStep_dly (x : Byte → List MicroOp) (s : State) : (fetchStep x s).dly = s.dly := by
  rcases fetchStep_cases x s with ⟨-, h⟩ | ⟨-, h⟩ <;> rw [h]
@[simp] theorem fetchStep_busy (x : Byte → List MicroOp) (s : State) : (fetchStep x s).busy = s.busy := by
  rcases fetchStep_cases x s with ⟨-, h⟩ | ⟨-, h⟩ <;> rw [h]
@[simp] theorem fetchStep_initd (x : Byte → List MicroOp) (s : State) : (fetchStep x s).initd = s.initd := by
  rcases fetchStep_cases x s with ⟨-, h⟩ | ⟨-, h⟩ <;> rw [h]
@[simp] theorem fetchStep_opc (x : Byte → List MicroOp) (s : State) : (fetchStep x s).opc = s.opc := by
  rcases fetchStep_cases x s with ⟨-, h⟩ | ⟨-, h⟩ <;> rw [h]
@[simp] theorem fetchStep_arg0 (x : Byte → List MicroOp) (s : State) : (fetchStep x s).arg0 = s.arg0 := by
  rcases fetchStep_cases x s with ⟨-, h⟩ | ⟨-, h⟩ <;> rw [h]
@[simp] theorem fetchStep_arg1 (x : Byte → List MicroOp) (s : State) : (fetchStep x s).arg1 = s.arg1 := by
  rcases fetchStep_cases x s with ⟨-, h⟩ | ⟨-, h⟩ <;> rw [h]
@[simp] theorem fetchStep_tr (x : Byte → List MicroOp) (s : State) : (fetchStep x s).tr = s.tr := by
  rcases fetchStep_cases x s with ⟨-, h⟩ | ⟨-, h⟩ <;> rw [h]
@[simp] theorem fetchStep_cfg (x : Byte → List MicroOp) (s : State) : (fetchStep x s).cfg = s.cfg := by
  rcases fetchStep_cases x s with ⟨-, h⟩ | ⟨-, h⟩ <;> rw [h]
@[simp] theorem fetchStep_mem (x : Byte → List MicroOp) (s : State) : (fetchStep x s).mem = s.mem := by
  rcases fetchStep_cases x s with ⟨-, h⟩ | ⟨-, h⟩ <;> rw [h]
@[simp] theorem fetchStep_inputs (x : Byte → List MicroOp) (s : State) : (fetchStep x s).inputs = s.inputs := by
  rcases fetchStep_cases x s with ⟨-, h⟩ | ⟨-, h⟩ <;> rw [h]
@[simp] theorem fetchStep_sp (x : Byte → List MicroOp) (s : State) : (fetchStep x s).sp = s.sp + 1 := by
  rcases fetchStep_cases x s with ⟨-, h⟩ | ⟨-, h⟩ <;> rw [h]

/-- What a step without reset does to LAT, DIR, DLY and the log: it executes the head of PEND, or it counts DLY down, or
it leaves all of them. -/
inductive Effect (s t : State) : Prop where
  | execute (m : MicroOp) (rest : List MicroOp) (hb : s.busy = true) (hd : s.dly = 0) (hp : s.pend = m :: rest)
      (ht : t = executeStep m rest s.takeInput)
  | count (hb : s.busy = true) (hd : s.dly ≠ 0) (ht : t = delayStep s.takeInput)
  | leave (lat : t.lat = s.lat) (dir : t.dir = s.dir) (tr : t.tr = s.tr) (dly : t.dly = s.dly)
      (still : s.busy = true → s.dly = 0)

theorem effect_of_step {s t : State} (h : step s = .next t) (hr : s.input.reset = false) : Effect s t := by
  cases step_cases h with
  | reset hr' ht => rw [hr] at hr'; cases hr'
  | nothing _ hb _ ht => exact ht ▸ .leave rfl rfl rfl rfl (fun hb' => absurd hb' (by simp [hb]))
  | accept i _ hb _ _ ht =>
    have still : s.busy = true → s.dly = 0 := fun hb' => absurd hb' (by simp [hb])
    cases ht with
    | list x _ _ ht => exact ht ▸ .leave rfl rfl rfl rfl still
    | string ptr _ _ ht => exact ht ▸ .leave rfl rfl rfl rfl still
  | busy _ hb _ ht =>
    cases ht with
    | delay hd ht => exact .count hb hd ht
    | execute m rest hd hp ht => exact .execute m rest hb hd hp ht
    | fetch hd _ _ ht =>
      subst ht
      exact .leave (fetchStep_lat ..) (fetchStep_dir ..) (fetchStep_tr ..) (fetchStep_dly ..) fun _ => hd
    | complete hd _ _ ht => exact ht ▸ .leave rfl rfl rfl rfl fun _ => hd

/-- Settles O30: of what a step can do only the execution of a PIN writes a latch, and it writes one. -/
theorem latchesChangeOneBitPerTick : Obligations.LatchesChangeOneBitPerTick := by
  unfold Obligations.LatchesChangeOneBitPerTick
  intro s t h hr p hne
  cases effect_of_step h hr with
  | leave lat _ _ _ _ => exact absurd (by rw [lat]) hne
  | count _ _ ht => exact absurd (by rw [ht]; rfl) hne
  | execute m rest hb hd hp ht =>
    have hlat : t.lat = latStep s.lat m := ht ▸ executeStep_lat ..
    rw [hlat] at hne ⊢
    cases m with
    | dirOut q => exact absurd rfl hne
    | dly n => exact absurd rfl hne
    | pin q v =>
      by_cases hpq : p = q
      · subst hpq
        rw [latStep, getRole_setRole_same]
        exact ⟨⟨rest, hb, hd, hp⟩, fun q hq => getRole_setRole_other _ _ hq⟩
      · exact absurd (getRole_setRole_other _ _ hpq) hne

/-- Settles O31: of what a step can do only the execution of a DIR_OUT writes a direction bit, and it clears one. -/
theorem directionBitsAreOnlyCleared : Obligations.DirectionBitsAreOnlyCleared := by
  unfold Obligations.DirectionBitsAreOnlyCleared
  intro s t h hr p hne
  cases effect_of_step h hr with
  | leave _ dir _ _ _ => exact absurd (by rw [dir]) hne
  | count _ _ ht => exact absurd (by rw [ht]; rfl) hne
  | execute m rest hb hd hp ht =>
    have hdir : t.dir = dirStep s.dir m := ht ▸ executeStep_dir ..
    rw [hdir] at hne ⊢
    cases m with
    | pin q v => exact absurd rfl hne
    | dly n => exact absurd rfl hne
    | dirOut q =>
      by_cases hpq : p = q
      · subst hpq
        exact ⟨getRole_setRole_same .., ⟨rest, hb, hd, hp⟩, fun q hq => getRole_setRole_other _ _ hq⟩
      · exact absurd (getRole_setRole_other _ _ hpq) hne

/-- Settles O32: by what a step does to DLY; a tick that counts changes no other register. -/
theorem delayCounterIsLoadedByDlyOnly : Obligations.DelayCounterIsLoadedByDlyOnly := by
  unfold Obligations.DelayCounterIsLoadedByDlyOnly
  intro s t h hr
  cases effect_of_step h hr with
  | leave _ _ _ dly still =>
    exact ⟨fun hb hd => absurd (still hb) hd, fun _ hne => absurd dly hne, fun _ => dly⟩
  | count hb hd ht =>
    subst ht
    refine ⟨fun _ _ => ⟨Nat.succ_pred hd, rfl, rfl, rfl, rfl, rfl, rfl, rfl, rfl, rfl, rfl, rfl, rfl⟩,
      fun hz => absurd hz hd, fun hidle => ?_⟩
    rw [hb] at hidle
    cases hidle
  | execute m rest hb hd hp ht =>
    have hdly : t.dly = m.delay := ht ▸ executeStep_dly m rest s.takeInput hd
    refine ⟨fun _ hne => absurd hd hne, fun _ hne => ?_, fun hidle => ?_⟩
    · rw [hdly, hd] at hne
      cases m with
      | dirOut q => exact absurd rfl hne
      | pin q v => exact absurd rfl hne
      | dly n => exact ⟨rest, hb, by rw [hdly, hp]; rfl⟩
    · rw [hb] at hidle
      cases hidle

/-- Settles O35: only an execute step writes the log, and it appends the head of PEND. -/
theorem logGrowsByWhatExecutes : Obligations.LogGrowsByWhatExecutes := by
  unfold Obligations.LogGrowsByWhatExecutes
  intro s t h hr
  cases effect_of_step h hr with
  | leave _ _ tr _ _ => exact .inl tr
  | count _ _ ht => exact .inl (by rw [ht]; rfl)
  | execute m rest hb hd hp ht =>
    subst ht
    exact .inr ⟨m, hb, hd, by rw [executeStep_pend, hp], executeStep_tr ..⟩

/-- A step keeps the configuration, makes the host's stores and takes one input, reset or not (R52, R62, R224). -/
theorem step_frame {s t : State} (h : step s = .next t) :
    t.mem = s.mem.writeAll s.input.stores ∧ t.cfg = s.cfg ∧ t.inputs = s.inputs.tail := by
  cases step_cases h with
  | reset _ ht => exact ht ▸ ⟨rfl, rfl, rfl⟩
  | nothing _ _ _ ht => exact ht ▸ ⟨rfl, rfl, rfl⟩
  | accept i _ _ _ _ ht =>
    cases ht with
    | list x _ _ ht => exact ht ▸ ⟨rfl, rfl, rfl⟩
    | string ptr _ _ ht => exact ht ▸ ⟨rfl, rfl, rfl⟩
  | busy _ _ _ ht =>
    cases ht with
    | delay _ ht => exact ht ▸ ⟨rfl, rfl, rfl⟩
    | execute m rest _ _ ht => exact ht ▸ ⟨executeStep_mem .., executeStep_cfg .., executeStep_inputs ..⟩
    | fetch _ _ _ ht => exact ht ▸ ⟨fetchStep_mem .., fetchStep_cfg .., fetchStep_inputs ..⟩
    | complete _ _ _ ht => exact ht ▸ ⟨rfl, rfl, rfl⟩

/-- Settles O34: `step_frame`, and the string space's law of a read after a write. -/
theorem stringSpaceIsTheHosts : Obligations.StringSpaceIsTheHosts := by
  unfold Obligations.StringSpaceIsTheHosts
  constructor
  · intro s t h
    obtain ⟨hmem, hcfg, -⟩ := step_frame h
    exact ⟨hmem, hcfg⟩
  · intro s t a b hwf h hst
    obtain ⟨hmem, -, -⟩ := step_frame h
    have hmem : t.mem = s.mem.write a b := by rw [hmem, hst]; rfl
    constructor
    · rw [hmem, Memory.read_write hwf, if_pos rfl]
    · intro a' ha
      rw [hmem, Memory.read_write hwf, if_neg ha]

/-- INITD is written by INIT's completion step alone, which sets it (R25, R108). -/
theorem initd_of_step {s t : State} (h : step s = .next t) (hr : s.input.reset = false) :
    t.initd = s.initd ∨ s.busy = true ∧ s.opc = 0 ∧ s.pend = [] ∧ t.initd = true := by
  cases step_cases h with
  | reset hr' _ => rw [hr] at hr'; cases hr'
  | nothing _ _ _ ht => exact .inl (ht ▸ rfl)
  | accept i _ _ _ _ ht =>
    cases ht with
    | list x _ _ ht => exact .inl (ht ▸ rfl)
    | string ptr _ _ ht => exact .inl (ht ▸ rfl)
  | busy _ hb _ ht =>
    cases ht with
    | delay _ ht => exact .inl (ht ▸ rfl)
    | execute m rest _ _ ht => exact .inl (ht ▸ executeStep_initd ..)
    | fetch _ _ _ ht => exact .inl (ht ▸ fetchStep_initd ..)
    | complete _ hp _ ht =>
      by_cases hopc : s.opc = 0
      · exact .inr ⟨hb, hopc, hp, by rw [ht, completionStep_init (s := s.takeInput) hopc]⟩
      · exact .inl (by rw [ht, completionStep_other (s := s.takeInput) hopc]; rfl)

/-- Settles O33: a direction bit that changes was cleared by a DIR_OUT at the head of PEND (O31), which the invariant
allows to INIT only; INITD is written by the completion step alone. -/
theorem onlyInitWritesDirAndInitd : Obligations.OnlyInitWritesDirAndInitd := by
  unfold Obligations.OnlyInitWritesDirAndInitd
  intro s t inv h hr
  constructor
  · intro hne
    obtain ⟨p, hp⟩ : ∃ p, getRole t.dir p ≠ getRole s.dir p := by
      by_contra hall
      exact hne (roleBits_ext fun p => not_not.mp fun hp => hall ⟨p, hp⟩)
    obtain ⟨-, ⟨rest, hb, -, hpend⟩, -⟩ := directionBitsAreOnlyCleared s t h hr p hp
    exact ⟨hb, inv.dirIsInit p (by rw [hpend]; exact List.mem_cons_self ..)⟩
  · intro hne
    exact (initd_of_step h hr).resolve_left hne

/-- BUSY rises only on a presented word (R104). -/
theorem cmdValid_of_busy_rise {s t : State} (h : step s = .next t) (hr : s.input.reset = false) (hb : s.busy = false)
    (ht : t.busy = true) : s.input.cmdValid = true := by
  cases hv : s.input.cmdValid with
  | true => rfl
  | false =>
    obtain rfl := step_next_unique (step_of_idle (step_ok h) hr hb hv) h
    exact absurd ht (by simp [hb])

/-- BUSY falls only in a completion step (R108). -/
theorem complete_of_busy_fall {s t : State} (h : step s = .next t) (hr : s.input.reset = false) (hb : s.busy = true)
    (ht : t.busy = false) : s.dly = 0 ∧ s.pend = [] ∧ s.str = false := by
  cases busyCase_of_step h hr hb with
  | complete hd hp hs _ => exact ⟨hd, hp, hs⟩
  | delay _ h' => rw [h'] at ht; exact absurd ht (by simp [hb])
  | execute m rest _ _ h' => rw [h'] at ht; exact absurd ht (by simp [hb])
  | fetch _ _ _ h' => rw [h'] at ht; exact absurd ht (by simp [hb])

/-- While the block is busy STR falls only on the fetch of TERM (R107). -/
theorem term_of_str_fall {s t : State} (h : step s = .next t) (hr : s.input.reset = false) (hb : s.busy = true)
    (hs : s.str = true) (ht : t.str = false) : s.takeInput.mem.read s.sp = s.cfg.term := by
  cases busyCase_of_step h hr hb with
  | complete _ _ hs' _ => exact absurd hs (by simpa using hs')
  | delay _ h' => rw [h'] at ht; exact absurd ht (by simp [hs])
  | execute m rest _ _ h' => rw [h'] at ht; exact absurd ht (by simp [hs])
  | fetch _ _ _ h' =>
    rcases fetchStep_cases (xWchr s.takeInput.cfg) s.takeInput with ⟨hterm, -⟩ | ⟨-, hf⟩
    · exact hterm
    · rw [h', hf] at ht
      exact absurd ht (by simp [hs])

/-- STATUS bit by bit (R30). -/
theorem status_bits (s : State) :
    s.status.getLsbD 0 = s.busy ∧ s.status.getLsbD 1 = s.initd ∧ s.status.extractLsb' 2 6 = 0#6 := by
  unfold State.status
  cases s.initd <;> cases s.busy <;> decide

/-- Settles O36: STATUS by its bits, and each flag by the one kind of step that changes it. -/
theorem statusShowsBusyAndInitd : Obligations.StatusShowsBusyAndInitd := by
  unfold Obligations.StatusShowsBusyAndInitd
  refine ⟨status_bits, fun s t h hr => ⟨cmdValid_of_busy_rise h hr, complete_of_busy_fall h hr,
    term_of_str_fall h hr, fun hi => ?_⟩⟩
  rcases initd_of_step h hr with hsame | ⟨-, -, -, hset⟩
  · rw [hsame, hi]
  · exact hset

/-- Settles O24: the fetch step of the busy block, by the byte it reads; MEM_ADDR is `memAddr_eq_some`. -/
theorem fetchStepReadsOneByte : Obligations.FetchStepReadsOneByte := by
  unfold Obligations.FetchStepReadsOneByte
  intro s hc hr hb hv hd hp hs
  have hstep : step s = .next (fetchStep (xWchr s.cfg) s.takeInput) := by
    rw [step_of_busy hc hr hb hv, busyStep_fetch (s := s.takeInput) hd hp hs, takeInput_cfg]
  refine ⟨memAddr_eq_some.mpr ⟨hr, hb, hd, hp, hs, rfl⟩, BitVec.toNat_add .., fun hterm => ?_, fun hchar => ?_⟩
  · rw [hstep, fetchStep_term (s := s.takeInput) _ hterm, takeInput_sp]
  · rw [hstep, fetchStep_char (s := s.takeInput) _ hchar, takeInput_sp]

end Sys2Proof.Machine
end

section
/-! PROOF. When a step has a next state, and what it does not read: the operand latches, the inputs of later ticks and a
word that is not presented (spec/10_state.md R26; spec/40_sequencer_primitives.md R109; spec/20_memory.md R62). -/

namespace Sys2Proof.Machine

/-! The cases of a step determine it. -/

theorem ExecCase.eq {i : Instr} {s t : State} (h : ExecCase i s t) : exec i s = .next t := by
  cases h with
  | list x idle hx ht => rw [exec_of_expansion hx, accept_idle i x idle, ht]
  | string ptr idle hi ht =>
    subst hi ht
    exact acceptString_idle ptr idle

theorem BusyCase.eq {s t : State} (h : BusyCase s t) : busyStep s = t := by
  cases h with
  | delay hd ht => rw [busyStep_delay hd, ht]
  | execute m rest hd hp ht => rw [busyStep_execute hd hp, ht]
  | fetch hd hp hs ht => rw [busyStep_fetch hd hp hs, ht]
  | complete hd hp hs ht => rw [busyStep_complete hd hp hs, ht]

theorem StepCase.eq {s t : State} (h : StepCase s t) (hc : s.cfg.ok = true) : step s = .next t := by
  cases h with
  | reset hr ht => rw [step_of_reset hc hr, ht]
  | nothing hr hb hv ht =>
    subst ht
    rcases hv with hv | ⟨why, hi⟩
    · exact step_of_idle hc hr hb hv
    · exact step_of_ignored hc hr hb hi
  | accept i hr hb hv hi ht => rw [step_of_op hc hr hb hv hi, ht.eq]
  | busy hr hb hv ht => rw [step_of_busy hc hr hb hv, ht.eq]

/-! When there is a next state (R109, U1, U11). -/

/-- A configuration of this hardware and a host that waits are enough for a next state. -/
theorem step_goes_on {s : State} (hc : s.cfg.ok = true) (hw : s.hostWaits) : ∃ t, step s = .next t := by
  cases hr : s.input.reset with
  | true => exact ⟨_, step_of_reset hc hr⟩
  | false =>
    cases hb : s.busy with
    | true => exact ⟨_, step_of_busy hc hr hb (hw hb hr)⟩
    | false =>
      cases hv : s.input.cmdValid with
      | false => exact ⟨_, step_of_idle hc hr hb hv⟩
      | true =>
        cases hi : decode s.cfg.exposeInternal s.input.cmdWord with
        | ignored why => exact ⟨_, step_of_ignored hc hr hb hi⟩
        | op i =>
          obtain ⟨t, ht, -⟩ := exec_idle_busy i (s := s.takeInput) hb
          exact ⟨t, (step_of_op hc hr hb hv hi).trans ht⟩

/-- A configuration that breaks R5 is refused (U11). -/
theorem step_of_badConfiguration {s : State} (hc : s.cfg.ok = false) : step s = .refused .badConfiguration := by
  simp [step, tickOnInput, hc]

/-- A host that does not wait presents a word to a busy block, without reset (R226). -/
theorem not_hostWaits_iff (s : State) :
    ¬ s.hostWaits ↔ s.input.reset = false ∧ s.busy = true ∧ s.input.cmdValid = true := by
  unfold State.hostWaits
  cases s.input.reset <;> cases s.busy <;> cases s.input.cmdValid <;> decide

/-- A step answers, or is refused on one of the two grounds. -/
theorem step_answers (s : State) :
    (s.cfg.ok = false ∧ step s = .refused .badConfiguration) ∨
    (s.cfg.ok = true ∧ ¬ s.hostWaits ∧ step s = .refused .commandWhileBusy) ∨
    (s.cfg.ok = true ∧ s.hostWaits ∧ ∃ t, step s = .next t) := by
  cases hc : s.cfg.ok with
  | false => exact .inl ⟨rfl, step_of_badConfiguration hc⟩
  | true =>
    by_cases hw : s.hostWaits
    · exact .inr (.inr ⟨rfl, hw, step_goes_on hc hw⟩)
    · obtain ⟨hr, hb, hv⟩ := (not_hostWaits_iff s).mp hw
      exact .inr (.inl ⟨rfl, hw, step_of_command_while_busy hc hr hb hv⟩)

/-- A run under a host that waits does not stop (R226). -/
theorem safeRun_of_hostWaits (k : Nat) {s : State} (hc : s.cfg.ok = true)
    (hw : ∀ j < k, ∀ u, run j s = .next u → u.hostWaits) : SafeRun k s := by
  induction k generalizing s with
  | zero => exact ⟨s, run_zero s⟩
  | succ k ih =>
    obtain ⟨t, ht⟩ := step_goes_on hc (hw 0 (Nat.succ_pos k) s (run_zero s))
    obtain ⟨-, hcfg, -⟩ := step_frame ht
    obtain ⟨u, hu⟩ := ih (hcfg ▸ hc) fun j hj v hv => hw (j + 1) (Nat.succ_lt_succ hj) v ((run_succ j ht).trans hv)
    exact ⟨u, (run_succ k ht).trans hu⟩

/-- Settles O28: `step_answers` decides every state, and its three answers exclude each other. -/
theorem stepStopsOnlyOutsideTheHostsDuty : Obligations.StepStopsOnlyOutsideTheHostsDuty := by
  unfold Obligations.StepStopsOnlyOutsideTheHostsDuty
  refine ⟨fun k s => safeRun_of_hostWaits k, fun s => ?_⟩
  have hnot := not_hostWaits_iff s
  rcases step_answers s with ⟨hc, hs⟩ | ⟨hc, hw, hs⟩ | ⟨hc, hw, t, hs⟩
  · rw [hs]
    exact ⟨by simp [hc], fun r => by simp [hc, eq_comm (a := r)]⟩
  · rw [hs]
    exact ⟨by simp [hw], fun r => by simp [hc, hnot.mp hw, eq_comm (a := r)]⟩
  · rw [hs]
    refine ⟨by simp [hc, hw], fun r => ?_⟩
    simp only [hc, reduceCtorEq, Bool.true_eq_false, false_and, false_or, true_and, false_iff]
    exact fun ⟨hr, hb, hv, _⟩ => hnot.mpr ⟨hr, hb, hv⟩ hw

/-! What a step does not read. -/

/-- `s` with other operand latches and other inputs to come. -/
def State.withUnread (a b : Byte) (ins : List TickInput) (s : State) : State :=
  { s with arg0 := a, arg1 := b, inputs := ins }

/-- A busy step carries the operand latches and the inputs to come through, and reads neither (R26, R109). -/
theorem BusyCase.withUnread {s t : State} (h : BusyCase s t) (a b : Byte) (ins : List TickInput) :
    BusyCase (s.withUnread a b ins) (t.withUnread a b ins) := by
  cases h with
  | delay hd ht => exact .delay hd (ht ▸ rfl)
  | execute m rest hd hp ht =>
    refine .execute m rest hd hp ?_
    cases m <;> exact ht ▸ rfl
  | fetch hd hp hs ht =>
    refine .fetch hd hp hs ?_
    by_cases hterm : s.mem.read s.sp = s.cfg.term
    · rw [ht, fetchStep_term _ hterm, fetchStep_term (s := s.withUnread a b ins) _ hterm]
      rfl
    · rw [ht, fetchStep_char _ hterm, fetchStep_char (s := s.withUnread a b ins) _ hterm]
      rfl
  | complete hd hp hs ht => exact .complete hd hp hs (ht ▸ rfl)

/-- Acceptance overwrites the operand latches, and carries the inputs to come through (R104). -/
theorem ExecCase.withUnread {i : Instr} {s t : State} (h : ExecCase i s t) (a b : Byte) (ins : List TickInput) :
    ExecCase i (s.withUnread a b ins) (t.withUnread t.arg0 t.arg1 ins) := by
  cases h with
  | list x idle hx ht => exact .list x idle hx (ht ▸ rfl)
  | string ptr idle hi ht => exact .string ptr idle hi (ht ▸ rfl)

/-- A step of the state with other operand latches and other inputs after this tick's is the same step: only a tick that
neither accepts nor resets hands the operand latches on (R26, R109). -/
theorem StepCase.withUnread {s t : State} (h : StepCase s t) (a b : Byte) {ins : List TickInput}
    (hin : (s.withUnread a b ins).input = s.input) :
    ∃ a' b', StepCase (s.withUnread a b ins) (t.withUnread a' b' ins.tail) ∧
      (a = s.arg0 → b = s.arg1 → a' = t.arg0 ∧ b' = t.arg1) := by
  have htake : (s.withUnread a b ins).takeInput = s.takeInput.withUnread a b ins.tail := by
    rw [State.takeInput, hin]
    rfl
  cases h with
  | reset hr ht =>
    exact ⟨t.arg0, t.arg1, .reset (hin ▸ hr) (by rw [htake, ht]; rfl), fun _ _ => ⟨rfl, rfl⟩⟩
  | nothing hr hb hv ht =>
    subst ht
    exact ⟨a, b, .nothing (hin ▸ hr) hb (hin ▸ hv) htake.symm, fun h0 h1 => ⟨h0, h1⟩⟩
  | accept i hr hb hv hi ht =>
    exact ⟨t.arg0, t.arg1, .accept i (hin ▸ hr) hb (hin ▸ hv) (hin ▸ hi) (htake ▸ ht.withUnread a b _),
      fun _ _ => ⟨rfl, rfl⟩⟩
  | busy hr hb hv ht =>
    refine ⟨a, b, .busy (hin ▸ hr) hb (hin ▸ hv) (htake ▸ ht.withUnread a b _), fun h0 h1 => ?_⟩
    cases ht with
    | delay _ ht => exact ht ▸ ⟨h0, h1⟩
    | execute m rest _ _ ht => simp [ht, h0, h1]
    | fetch _ _ _ ht => simp [ht, h0, h1]
    | complete _ _ _ ht => exact ht ▸ ⟨h0, h1⟩

/-- Settles O9: `StepCase.withUnread` with the inputs as they were. -/
theorem operandLatchesAreNotRead : Obligations.OperandLatchesAreNotRead := by
  unfold Obligations.OperandLatchesAreNotRead
  intro s t a b h
  obtain ⟨a', b', hcase, -⟩ := (step_cases h).withUnread a b (ins := s.inputs) rfl
  have hok : s.cfg.ok = true := step_ok h
  obtain ⟨-, -, hins⟩ := step_frame h
  rw [← hins] at hcase
  exact ⟨a', b', hcase.eq hok⟩

/-- A word on CMD_WORD is not read while CMD_VALID is 0 (R62, R109). -/
theorem StepCase.withWord {s t : State} {i : TickInput} {r : List TickInput} (hv : i.cmdValid = false)
    (h : StepCase { s with inputs := i :: r } t) (w : CmdWord) :
    StepCase { s with inputs := { i with cmdWord := w } :: r } t := by
  cases h with
  | reset hr ht => exact .reset hr ht
  | nothing hr hb _ ht => exact .nothing hr hb (.inl hv) ht
  | accept j _ _ hv' _ _ => exact absurd hv' (by simp [State.input, hv])
  | busy hr hb hv ht => exact .busy hr hb hv ht

/-- Settles O29: `StepCase.withUnread` with the operand latches as they were, and `StepCase.withWord`. -/
theorem stepReadsThisTicksInputOnly : Obligations.StepReadsThisTicksInputOnly := by
  unfold Obligations.StepReadsThisTicksInputOnly
  constructor
  · intro s t i r r' h
    have hok := step_ok h
    obtain ⟨a', b', hcase, hargs⟩ := (step_cases h).withUnread s.arg0 s.arg1 (ins := i :: r') rfl
    obtain ⟨rfl, rfl⟩ := hargs rfl rfl
    exact hcase.eq hok
  · intro s t i r w hv h
    have hok := step_ok h
    exact ((step_cases h).withWord hv w).eq hok

end Sys2Proof.Machine
end

section
/-! PROOF. The canonical form of the string space (spec/20_memory.md R52; log entry 7). -/

namespace Sys2Proof.Machine.Memory

theorem wfFrom_cons {lo k : Nat} {v : Byte} {rest : Memory} :
    wfFrom lo ((k, v) :: rest) = true ↔ lo ≤ k ∧ k < 65536 ∧ v ≠ unlisted ∧ wfFrom (k + 1) rest = true := by
  simp [wfFrom, and_assoc]

/-- The first cell is read at its own address. -/
theorem lookup_cons_same (k : Nat) (v : Byte) (rest : Memory) : lookup ((k, v) :: rest) k = v := if_pos rfl

/-- A listed byte stands at or above a well-formed list's first address. -/
theorem le_of_lookup_ne {m : Memory} {lo a : Nat} (h : wfFrom lo m = true) (ha : lookup m a ≠ unlisted) : lo ≤ a :=
  Nat.le_of_not_lt fun hlt => ha (lookup_below h hlt)

/-- A nonempty well-formed list differs from the empty one at its first address. -/
theorem exists_lookup_ne {lo k : Nat} {v : Byte} {rest : Memory} (h : wfFrom lo ((k, v) :: rest) = true) :
    k < 65536 ∧ lookup ((k, v) :: rest) k ≠ unlisted := by
  obtain ⟨-, hk, hv, -⟩ := wfFrom_cons.mp h
  exact ⟨hk, by rwa [lookup_cons_same]⟩

/-- Two lists in canonical form that read alike are the same: their first cells are, and so are the rests. -/
theorem eq_of_lookup_eq {m m' : Memory} {lo : Nat} (h : wfFrom lo m = true) (h' : wfFrom lo m' = true)
    (heq : ∀ a < 65536, lookup m a = lookup m' a) : m = m' := by
  induction m generalizing lo m' with
  | nil =>
    cases m' with
    | nil => rfl
    | cons c' rest' =>
      obtain ⟨hk, hne⟩ := exists_lookup_ne h'
      exact absurd (heq _ hk).symm hne
  | cons c rest ih =>
    cases m' with
    | nil =>
      obtain ⟨hk, hne⟩ := exists_lookup_ne h
      exact absurd (heq _ hk) hne
    | cons c' rest' =>
      obtain ⟨k, v⟩ := c
      obtain ⟨k', v'⟩ := c'
      obtain ⟨hk, hne⟩ := exists_lookup_ne h
      obtain ⟨hk', hne'⟩ := exists_lookup_ne h'
      obtain ⟨-, -, hv, hrest⟩ := wfFrom_cons.mp h
      obtain ⟨-, -, hv', hrest'⟩ := wfFrom_cons.mp h'
      have hle : k ≤ k' := le_of_lookup_ne (wfFrom_cons.mpr ⟨le_rfl, hk, hv, hrest⟩) (heq k' hk' ▸ hne')
      have hle' : k' ≤ k := le_of_lookup_ne (wfFrom_cons.mpr ⟨le_rfl, hk', hv', hrest'⟩) (heq k hk ▸ hne)
      obtain rfl : k = k' := Nat.le_antisymm hle hle'
      obtain rfl : v = v' := by simpa [lookup_cons_same] using heq k hk
      rw [ih hrest hrest' fun a ha => ?_]
      by_cases hka : k = a
      · rw [lookup_below hrest (by omega), lookup_below hrest' (by omega)]
      · simpa [lookup_cons, hka] using heq a ha

end Sys2Proof.Machine.Memory

namespace Sys2Proof.Machine

/-- Settles O37: every number below 65536 is an address, so reading alike is looking up alike. -/
theorem stringSpaceFormIsCanonical : Obligations.StringSpaceFormIsCanonical := by
  unfold Obligations.StringSpaceFormIsCanonical
  intro m m' h h' heq
  refine Memory.eq_of_lookup_eq h h' fun a ha => ?_
  have hread := heq (BitVec.ofNat 16 a)
  have hmod : a % 2 ^ 16 = a := Nat.mod_eq_of_lt ha
  simpa only [Memory.read, BitVec.toNat_ofNat, hmod] using hread

end Sys2Proof.Machine
end

section
/-! PROOF. The string at an address (spec/43_byte_transfer.md R153, R154). -/

namespace Sys2Proof.Machine

/-- From `ptr` on the space holds the bytes of `bs`, none of them TERM, and then TERM (R153). -/
def HoldsString (term : Byte) (m : Memory) : Addr → List Byte → Prop
  | ptr, [] => m.read ptr = term
  | ptr, b :: rest => m.read ptr = b ∧ b ≠ term ∧ HoldsString term m (ptr + 1) rest

/-- The address after `k` more is `k + 1` on, modulo 2^16. -/
theorem addr_succ (ptr : Addr) (k : Nat) : ptr + 1 + BitVec.ofNat 16 k = ptr + BitVec.ofNat 16 (k + 1) := by
  rw [BitVec.add_assoc, Nat.add_comm k 1, BitVec.ofNat_add]
  rfl

/-- Every address is some number of places on from any other. -/
theorem addr_eq_add (ptr a : Addr) : ∃ k < 65536, a = ptr + BitVec.ofNat 16 k :=
  ⟨(a - ptr).toNat, (a - ptr).isLt, by
    rw [BitVec.ofNat_toNat, BitVec.setWidth_eq, BitVec.add_comm, BitVec.sub_add_cancel]⟩

section
variable {term : Byte} {m : Memory}

theorem stringAt_term {fuel : Nat} {ptr : Addr} (h : m.read ptr = term) :
    stringAt term m (fuel + 1) ptr = some [] := if_pos h

theorem stringAt_char {fuel : Nat} {ptr : Addr} (h : m.read ptr ≠ term) :
    stringAt term m (fuel + 1) ptr = (stringAt term m fuel (ptr + 1)).map (fun bs => m.read ptr :: bs) := if_neg h

theorem holdsString_of_stringAt {fuel : Nat} {ptr : Addr} {bs : List Byte} (h : stringAt term m fuel ptr = some bs) :
    HoldsString term m ptr bs := by
  induction fuel generalizing ptr bs with
  | zero => cases h
  | succ fuel ih =>
    by_cases hterm : m.read ptr = term
    · rw [stringAt_term hterm] at h
      cases h
      exact hterm
    · rw [stringAt_char hterm] at h
      obtain ⟨rest, hrest, rfl⟩ := Option.map_eq_some_iff.mp h
      exact ⟨rfl, hterm, ih hrest⟩

/-- What the space holds at the `k`-th place of a string. -/
theorem HoldsString.getElem {ptr : Addr} {bs : List Byte} (h : HoldsString term m ptr bs) {k : Nat}
    (hk : k < bs.length) : bs[k] = m.read (ptr + BitVec.ofNat 16 k) ∧ bs[k] ≠ term := by
  induction bs generalizing ptr k with
  | nil => cases hk
  | cons b rest ih =>
    obtain ⟨hb, hterm, hrest⟩ := h
    cases k with
    | zero => exact ⟨by simp [hb], hterm⟩
    | succ k =>
      rw [← addr_succ]
      exact ih hrest (Nat.lt_of_succ_lt_succ hk)

theorem HoldsString.terminator {ptr : Addr} {bs : List Byte} (h : HoldsString term m ptr bs) :
    m.read (ptr + BitVec.ofNat 16 bs.length) = term := by
  induction bs generalizing ptr with
  | nil =>
    have hread : m.read ptr = term := h
    simpa using hread
  | cons b rest ih =>
    obtain ⟨-, -, hrest⟩ := h
    rw [List.length_cons, ← addr_succ]
    exact ih hrest

/-- Within `fuel` places there is no string exactly if none of them holds TERM. -/
theorem stringAt_eq_none_iff {fuel : Nat} {ptr : Addr} :
    stringAt term m fuel ptr = none ↔ ∀ k < fuel, m.read (ptr + BitVec.ofNat 16 k) ≠ term := by
  induction fuel generalizing ptr with
  | zero => simp [stringAt]
  | succ fuel ih =>
    rw [Nat.forall_lt_succ_left]
    simp only [← addr_succ]
    by_cases hterm : m.read ptr = term
    · simp [stringAt_term hterm, hterm]
    · simp [stringAt_char hterm, hterm, ih]

/-- One more place that does not hold TERM makes no difference. -/
theorem stringAt_succ_of_ne {fuel : Nat} {ptr : Addr} (h : m.read (ptr + BitVec.ofNat 16 fuel) ≠ term) :
    stringAt term m (fuel + 1) ptr = stringAt term m fuel ptr := by
  induction fuel generalizing ptr with
  | zero => exact stringAt_char (by simpa using h)
  | succ fuel ih =>
    rw [← addr_succ] at h
    by_cases hterm : m.read ptr = term
    · rw [stringAt_term hterm, stringAt_term hterm]
    · rw [stringAt_char hterm, stringAt_char hterm, ih h]

/-- No string at all exactly if no address holds TERM: all 65536 are looked at (R154). -/
theorem stringOf_eq_none_iff {ptr : Addr} : stringOf term m ptr = none ↔ ∀ a : Addr, m.read a ≠ term := by
  rw [stringOf, stringAt_eq_none_iff]
  constructor
  · intro h a
    obtain ⟨k, hk, rfl⟩ := addr_eq_add ptr a
    exact h k hk
  · intro h k _
    exact h _

/-- A string starts with the byte at its address and goes on with the string at the next: the place that is then looked
at once more is the address itself. -/
theorem stringOf_char {ptr : Addr} (h : m.read ptr ≠ term) :
    stringOf term m ptr = (stringOf term m (ptr + 1)).map (fun bs => m.read ptr :: bs) := by
  have hwrap : ptr + 1 + BitVec.ofNat 16 65535 = ptr := by rw [addr_succ]; exact BitVec.add_zero ptr
  have hnext : stringOf term m (ptr + 1) = stringAt term m 65535 (ptr + 1) :=
    stringAt_succ_of_ne (fuel := 65535) (by rwa [hwrap])
  rw [hnext]
  exact stringAt_char (fuel := 65535) h

end

/-- Settles O43: no string without TERM, what a string holds place by place, and the recursion on the address. -/
theorem stringEndsAtTheFirstTerm : Obligations.StringEndsAtTheFirstTerm := by
  unfold Obligations.StringEndsAtTheFirstTerm
  intro term m ptr
  refine ⟨stringOf_eq_none_iff, fun bs hbs => ?_, stringAt_term (fuel := 65535), stringOf_char⟩
  have h := holdsString_of_stringAt hbs
  exact ⟨fun k hk => h.getElem hk, h.terminator⟩

end Sys2Proof.Machine
end

section
/-! PROOF. The invariant: it holds after reset, every step keeps it, and what it says of an initialised block
(spec/10_state.md R22, R35; spec/40_sequencer_primitives.md R115). -/

namespace Sys2Proof.Machine

/-- The reset state of a configuration of this hardware has the invariant (R36). -/
theorem inv_resetWith {cfg : Config} {m : Memory} (hc : cfg.ok = true) (hm : m.wf = true) (ins : List TickInput) :
    (State.resetWith cfg m ins).Inv where
  config := hc
  memory := hm
  idle _ := ⟨rfl, rfl, rfl⟩
  dlyFits := Nat.two_pow_pos _
  loadsFit _ h := absurd h List.not_mem_nil
  strIsWstr h := absurd h Bool.false_ne_true
  dirIsInit _ h := absurd h List.not_mem_nil
  eLow h := by simp [State.resetWith] at h
  outputs h := absurd h Bool.false_ne_true
  log := ⟨rfl, rfl⟩

/-- Settles O39: `inv_resetWith`; the default configuration is one of this hardware. -/
theorem resetHasTheInvariant : Obligations.ResetHasTheInvariant := by
  unfold Obligations.ResetHasTheInvariant
  have hdefault : Config.default.ok = true := by decide +kernel
  exact ⟨inv_resetWith hdefault rfl [], fun cfg m ins hc hm => inv_resetWith hc hm ins⟩

/-- Only INIT has opcode 0. -/
theorem eq_xInit_of_opcode {cfg : Config} {i : Instr} {x : List MicroOp} (hx : expansion cfg i = some x)
    (hi : i.opcode = 0) : x = xInit cfg := by
  cases i with
  | init _ => exact (Option.some.inj hx).symm
  | strobe _ | nibble _ _ _ _ | wcmd _ _ | wchr _ _ | wstr _ | clear _ | setcur _ _ =>
    exact absurd hi (by simp [Instr.opcode])

namespace State.Inv

section
variable {s t : State} (inv : s.Inv)
include inv

/-- The host's stores keep the string space in its form. -/
theorem takeInput : s.takeInput.Inv :=
  { inv with memory := Memory.wf_writeAll inv.memory _ }

/-- An initialised idle block, or one with nothing pending, has E low. -/
theorem eLow_of_initd (hi : s.initd = true) (hp : s.pend = []) : getRole s.lat .e = false := by
  obtain ⟨he, -⟩ := inv.eLow (.inl hi)
  rwa [hp] at he

/-- A plain list pending in an initialised block leaves E low and the outputs outputs (R22, R115). -/
theorem eLow_plain {w : Nat} {x : List MicroOp} (hx : Plain w x) (hi : s.initd = true) (hp : s.pend = []) :
    getRole (latAfter x s.lat) .e = false ∧ dirAfter x s.dir = 0 :=
  ⟨hx.eLow _ (inv.eLow_of_initd hi hp), by rw [dirAfter_of_no_dirOut hx.noDir, inv.outputs hi]⟩

/-- Acceptance keeps the invariant: INIT's list leaves E low and all roles outputs by itself, any other list keeps what
an initialised block has. -/
theorem accept {i : Instr} (h : ExecCase i s t) : t.Inv := by
  have hl := loads_of_ok inv.config
  cases h with
  | list x idle hx ht =>
    subst ht
    obtain ⟨-, hp, -⟩ := inv.idle idle
    exact { inv with
      idle := fun h => absurd h (by simp [acceptedState])
      loadsFit := fits_of_expansion hl hx
      strIsWstr := fun h => absurd h (by simp [acceptedState])
      dirIsInit := fun p h => by_contra fun hi => (plain_of_expansion hl hx hi).noDir p h
      eLow := fun h => by
        by_cases hi : i.opcode = 0
        · obtain rfl := eq_xInit_of_opcode hx hi
          exact ⟨eLow_xInit hl _, dirAfter_xInit ..⟩
        · exact inv.eLow_plain (plain_of_expansion hl hx hi) (h.resolve_right fun h => hi h.2) hp }
  | string ptr idle hi ht =>
    subst ht
    obtain ⟨-, hp, -⟩ := inv.idle idle
    exact { inv with
      idle := fun h => absurd h (by simp [acceptedString])
      loadsFit := fun n h => absurd h List.not_mem_nil
      strIsWstr := fun _ => rfl
      dirIsInit := fun p h => absurd h List.not_mem_nil
      eLow := fun h =>
        inv.eLow_plain (Plain.nil 0) (h.resolve_right fun h => absurd h.2 (by simp [acceptedString])) hp }

/-- The execute step keeps the invariant: what is pending leaves LAT and DIR as it would have before (R106). -/
theorem execute {m : MicroOp} {rest : List MicroOp} (hb : s.busy = true) (hd : s.dly = 0) (hp : s.pend = m :: rest) :
    (executeStep m rest s).Inv where
  config := by simpa using inv.config
  memory := by simpa using inv.memory
  idle h := absurd h (by simp [hb])
  dlyFits := by
    rw [executeStep_dly m rest s hd, executeStep_cfg]
    cases m with
    | dirOut p => exact Nat.two_pow_pos _
    | pin p v => exact Nat.two_pow_pos _
    | dly n => exact inv.loadsFit n (hp ▸ List.mem_cons_self ..)
  loadsFit n h := by
    rw [executeStep_pend] at h
    rw [executeStep_cfg]
    exact inv.loadsFit n (hp ▸ List.mem_cons_of_mem m h)
  strIsWstr := by simpa using inv.strIsWstr
  dirIsInit p h := by
    rw [executeStep_pend] at h
    rw [executeStep_opc]
    exact inv.dirIsInit p (hp ▸ List.mem_cons_of_mem m h)
  eLow := by simpa [hp] using inv.eLow
  outputs h := by
    rw [executeStep_initd] at h
    rw [executeStep_dir, inv.outputs h]
    exact dirAfter_zero [m]
  log := by
    obtain ⟨hlat, hdir⟩ := inv.log
    constructor
    · rw [executeStep_lat, executeStep_tr, executeStep_cfg, latAfter_append, ← hlat]
      rfl
    · rw [executeStep_dir, executeStep_tr, dirAfter_append, ← hdir]
      rfl

/-- The fetch step keeps the invariant: it runs in a WSTR, whose lists are plain (R107). -/
theorem fetch (hb : s.busy = true) (hp : s.pend = []) (hs : s.str = true) : (fetchStep (xWchr s.cfg) s).Inv := by
  have hplain (b : Byte) : Plain s.cfg.wDly (xWchr s.cfg b) := plain_xByte (loads_of_ok inv.config) b false
  have hopc : s.opc ≠ 0 := by rw [inv.strIsWstr hs]; decide
  rcases fetchStep_cases (xWchr s.cfg) s with ⟨-, h⟩ | ⟨-, h⟩ <;> rw [h]
  · exact { inv with
      idle := fun h => absurd h (by simp [hb])
      strIsWstr := fun h => absurd h (by simp) }
  · exact { inv with
      idle := fun h => absurd h (by simp [hb])
      loadsFit := (hplain _).fits
      dirIsInit := fun p h => absurd h ((hplain _).noDir p)
      eLow := fun h => inv.eLow_plain (hplain _) (h.resolve_right fun h => hopc h.2) hp }

/-- The completion step keeps the invariant: INIT has left all roles outputs by then (R108, R133). -/
theorem complete (hb : s.busy = true) (hd : s.dly = 0) (hp : s.pend = []) (hs : s.str = false) :
    (completionStep s).Inv := by
  have hinit (h : (completionStep s).initd = true) : s.initd = true ∨ s.busy = true ∧ s.opc = 0 := by
    simpa [hb] using h
  exact { inv with
    idle := fun _ => ⟨hd, hp, hs⟩
    eLow := fun h => inv.eLow (hinit (h.resolve_right fun h => absurd h.1 (by simp)))
    outputs := fun h => by
      obtain ⟨-, hdir⟩ := inv.eLow (hinit h)
      rwa [hp] at hdir }

/-- The steps of a busy block keep the invariant (R105 to R108). -/
theorem busyCase (hb : s.busy = true) (h : BusyCase s t) : t.Inv := by
  cases h with
  | delay hd ht =>
    subst ht
    exact { inv with
      idle := fun h => absurd h (by simp [hb])
      dlyFits := Nat.lt_of_le_of_lt (Nat.sub_le _ _) inv.dlyFits }
  | execute m rest hd hp ht => exact ht ▸ inv.execute hb hd hp
  | fetch hd hp hs ht => exact ht ▸ inv.fetch hb hp hs
  | complete hd hp hs ht => exact ht ▸ inv.complete hb hd hp hs

end

end State.Inv

/-- Settles O38: taking the tick's input keeps the invariant, and so does each kind of step after it. -/
theorem stepKeepsTheInvariant : Obligations.StepKeepsTheInvariant := by
  unfold Obligations.StepKeepsTheInvariant
  intro s t inv h
  have inv' := inv.takeInput
  cases step_cases h with
  | reset _ ht => exact ht ▸ inv_resetWith inv'.config inv'.memory _
  | nothing _ _ _ ht => exact ht ▸ inv'
  | accept i _ _ _ _ ht => exact inv'.accept ht
  | busy _ hb _ ht => exact inv'.busyCase hb ht

/-! Runs without reset. -/

theorem State.noResetFor.head {k : Nat} {s : State} (h : s.noResetFor (k + 1)) : s.input.reset = false := by
  unfold State.input
  cases hi : s.inputs with
  | nil => rfl
  | cons i rest => exact h i (by simp [hi])

theorem State.noResetFor.tail {k : Nat} {s t : State} (h : s.noResetFor (k + 1)) (ht : t.inputs = s.inputs.tail) :
    t.noResetFor k := by
  intro i hi
  rw [ht] at hi
  apply h i
  cases hs : s.inputs with
  | nil => simp [hs] at hi
  | cons j rest =>
    rw [hs] at hi
    exact List.mem_cons_of_mem _ hi

/-- What every step without reset keeps, a run without reset keeps. -/
theorem run_keeps {P : State → Prop} (hP : ∀ s t, P s → s.input.reset = false → step s = .next t → P t) {k : Nat}
    {s u : State} (hs : P s) (hr : s.noResetFor k) (hu : run k s = .next u) : P u := by
  induction k generalizing s with
  | zero =>
    rw [run_zero] at hu
    exact Host.Outcome.next.inj hu ▸ hs
  | succ k ih =>
    obtain ⟨t, ht, hrun⟩ := run_succ_cases hu
    obtain ⟨-, -, hins⟩ := step_frame ht
    exact ih (hP s t hs hr.head ht) (hr.tail hins) hrun

/-- An initialised block stays so until a reset, and keeps the invariant. -/
theorem inv_initd_of_step {s t : State} (h : s.Inv ∧ s.initd = true) (hr : s.input.reset = false)
    (hs : step s = .next t) : t.Inv ∧ t.initd = true := by
  obtain ⟨inv, hi⟩ := h
  obtain ⟨-, hflags⟩ := statusShowsBusyAndInitd
  obtain ⟨-, -, -, hinitd⟩ := hflags s t hs hr
  exact ⟨stepKeepsTheInvariant s t inv hs, hinitd hi⟩

/-- The direction word 0 makes every role an output (R22). -/
theorem getRole_zero (p : Role) : getRole 0 p = false := BitVec.getLsbD_zero

/-- Settles O40: a run without reset keeps the invariant and INITD, and the invariant says the rest of an initialised
block. -/
theorem enableIsLowWhenIdleAfterInit : Obligations.EnableIsLowWhenIdleAfterInit := by
  unfold Obligations.EnableIsLowWhenIdleAfterInit
  intro k s u inv hi hr hu
  obtain ⟨uinv, uinitd⟩ :=
    run_keeps (P := fun s => s.Inv ∧ s.initd = true) (fun _ _ => inv_initd_of_step) ⟨inv, hi⟩ hr hu
  have hout (p : Role) : getRole u.dir p = false := by rw [uinv.outputs uinitd, getRole_zero]
  refine ⟨uinitd, uinv.outputs uinitd, fun p => State.pinOut_of_output (hout p) rfl, fun hidle => ?_⟩
  obtain ⟨-, hp, -⟩ := uinv.idle hidle
  exact State.pinOut_of_output (hout .e) (uinv.eLow_of_initd uinitd hp)

end Sys2Proof.Machine
end

section
/-! PROOF. An operation from its acceptance to its completion, nothing coming from outside meanwhile
(spec/40_sequencer_primitives.md R104, R108, R111; spec/43_byte_transfer.md R152, R154). -/

namespace Sys2Proof.Machine

/-- A presented word brings no stores: taking it leaves the inputs behind it. -/
theorem takeInput_of_command {s : State} {w : CmdWord} {rest : List TickInput}
    (hin : s.inputs = TickInput.command w :: rest) : s.takeInput = { s with inputs := rest } := by
  simp [State.takeInput, State.input, hin, TickInput.command]

section
variable {s : State} {w : CmdWord} {rest : List TickInput} (hc : s.cfg.ok = true) (idle : s.busy = false)
  (hin : s.inputs = TickInput.command w :: rest)
include hc idle hin

/-- The tick that takes a word presented to an idle block is the meaning of what it decodes to (R104). -/
theorem step_of_command {i : Instr} (hi : decode s.cfg.exposeInternal w = .op i) :
    step s = exec i { s with inputs := rest } := by
  have hinput : s.input = TickInput.command w := by rw [State.input, hin]; rfl
  have hdec : decode s.cfg.exposeInternal s.input.cmdWord = .op i := by rw [hinput]; exact hi
  rw [step_of_op hc (hinput ▸ rfl) idle (hinput ▸ rfl) hdec, takeInput_of_command hin]

/-- The tick that takes a word the decoder ignores changes nothing else (R80, R81). -/
theorem step_of_command_ignored {why : IgnoredWord} (hi : decode s.cfg.exposeInternal w = .ignored why) :
    step s = .next { s with inputs := rest } := by
  have hinput : s.input = TickInput.command w := by rw [State.input, hin]; rfl
  have hdec : decode s.cfg.exposeInternal s.input.cmdWord = .ignored why := by rw [hinput]; exact hi
  rw [step_of_ignored hc (hinput ▸ rfl) idle hdec, takeInput_of_command hin]

end

/-- In a quiet tick a busy block with nothing left to do completes (R108). -/
theorem step_complete_quiet {s : State} (hc : s.cfg.ok = true) (hb : s.busy = true) (hd : s.dly = 0)
    (hp : s.pend = []) (hs : s.str = false) (hq : s.quietFor 1) :
    step s = .next (completionStep (s.dropInputs 1)) := by
  rw [step_busy_quiet hc hb hq.head, busyStep_complete (s := s.dropInputs 1) hd hp hs]

/-- A busy block that reads no string executes what is pending and completes (R106, R108, R111). -/
theorem run_to_completion {s : State} {x : List MicroOp} (hc : s.cfg.ok = true) (hb : s.busy = true) (hd : s.dly = 0)
    (hp : s.pend = x) (hs : s.str = false) (hq : s.quietFor (x.length + delaySum x + 1)) :
    run (x.length + delaySum x + 1) s = .next (completionStep ((afterList x [] s).dropInputs 1)) := by
  have hlist := run_pending x [] hc hb hd (hp.trans (List.append_nil x).symm) (hq.mono (by omega))
  rw [run_add 1 hlist]
  exact run_one (step_complete_quiet (s := afterList x [] s) hc hb rfl rfl hs (hq.drop rfl))

/-- Settles O41: the tick of acceptance, the ticks of the list and the tick of completion. -/
theorem operationRunsItsExpansion : Obligations.OperationRunsItsExpansion := by
  unfold Obligations.OperationRunsItsExpansion
  intro s w rest i x hc idle hin hi hx hq
  have hstep := (step_of_command hc idle.busy hin hi).trans (exec_idle_of_expansion idle.busy hx)
  have hticks : 2 + x.length + delaySum x = x.length + delaySum x + 1 + 1 := by omega
  have hafter : 1 + x.length + delaySum x = x.length + delaySum x + 1 := by omega
  rw [hafter] at hq
  rw [hticks, hafter, run_succ _ hstep,
    run_to_completion (s := acceptedState i x { s with inputs := rest }) (x := x) hc rfl idle.dly rfl rfl hq]
  simp only [completionStep, completeFlags, afterList, acceptedState, State.dropInputs, List.drop_drop]

/-! WSTR. -/

theorem xWstr_cons (cfg : Config) (b : Byte) (bs : List Byte) :
    xWstr cfg (b :: bs) = xWchr cfg b ++ xWstr cfg bs := List.flatMap_cons

/-- A character's transfer makes no role an output. -/
@[simp] theorem dirAfter_xWchr (cfg : Config) (b : Byte) (d : RoleBits) : dirAfter (xWchr cfg b) d = d := rfl

/-- The ticks of one character of a string: its fetch, its micro-ops and their delays (R107, R234). -/
def charTicks (cfg : Config) : Nat := 1 + (17 + (2 * cfg.nPw + cfg.nCmd))

/-- The ticks of a string of `k` characters: theirs, and the fetch of the terminator (R154, R234). -/
def stringTicks (cfg : Config) (k : Nat) : Nat := k * charTicks cfg + 1

theorem stringTicks_succ (cfg : Config) (k : Nat) : stringTicks cfg (k + 1) = charTicks cfg + stringTicks cfg k := by
  unfold stringTicks
  ring

/-- The state after `k` more bytes of the string have been read and `xs` executed, nothing being pending. -/
def readOn (xs : List MicroOp) (k ticks : Nat) (s : State) : State :=
  { s with lat := latAfter xs s.lat, dly := 0, sp := s.sp + BitVec.ofNat 16 k, pend := [], tr := s.tr ++ xs,
           inputs := s.inputs.drop ticks }

/-- The state after the string `bs` has been sent and its terminator fetched. -/
def afterString (bs : List Byte) (s : State) : State :=
  { readOn (xWstr s.cfg bs) (bs.length + 1) (stringTicks s.cfg bs.length) s with str := false }

theorem afterString_cons (b : Byte) (rest : List Byte) (s : State) :
    afterString (b :: rest) s = afterString rest (readOn (xWchr s.cfg b) 1 (charTicks s.cfg) s) := by
  simp only [afterString, readOn, xWstr_cons, List.length_cons, stringTicks_succ, latAfter_append, List.append_assoc,
    List.drop_drop, BitVec.add_assoc, ← BitVec.ofNat_add, Nat.add_comm 1]

/-- The state after the fetch of a byte that is not TERM, in a quiet tick (R107). -/
def fetchedChar (s : State) : State :=
  { s.dropInputs 1 with sp := s.sp + 1, pend := xWchr s.cfg (s.mem.read s.sp) }

section
variable {s : State} (hc : s.cfg.ok = true) (hb : s.busy = true) (hd : s.dly = 0) (hp : s.pend = [])
  (hs : s.str = true)
include hc hb hd hp hs

/-- In a quiet tick a block that reads a string fetches (R107). -/
theorem step_fetch_quiet (hq : s.input.quiet = true) :
    step s = .next (fetchStep (xWchr s.cfg) (s.dropInputs 1)) := by
  rw [step_busy_quiet hc hb hq, busyStep_fetch (s := s.dropInputs 1) hd hp hs, dropInputs_cfg]

/-- A byte that is not TERM is fetched and sent (R107, R155). -/
theorem run_char (hchar : s.mem.read s.sp ≠ s.cfg.term) (hq : s.quietFor (charTicks s.cfg)) :
    run (charTicks s.cfg) s = .next (readOn (xWchr s.cfg (s.mem.read s.sp)) 1 (charTicks s.cfg) s) := by
  have hlist : (xWchr s.cfg (s.mem.read s.sp)).length + delaySum (xWchr s.cfg (s.mem.read s.sp)) =
      17 + (2 * s.cfg.nPw + s.cfg.nCmd) := by rw [length_xWchr, delaySum_xWchr]
  have hfetch : step s = .next (fetchedChar s) := by
    rw [step_fetch_quiet hc hb hd hp hs (hq.mono (Nat.le_add_right 1 _)).head,
      fetchStep_char (s := s.dropInputs 1) _ hchar]
    rfl
  have hquiet : (fetchedChar s).quietFor (17 + (2 * s.cfg.nPw + s.cfg.nCmd)) := State.quietFor.drop (a := 1) hq rfl
  rw [← hlist] at hquiet
  have hsend :=
    run_pending (s := fetchedChar s) (xWchr s.cfg (s.mem.read s.sp)) [] hc hb hd (List.append_nil _).symm hquiet
  rw [charTicks, ← hlist, run_add _ (run_one hfetch), hsend]
  simp only [afterList, readOn, fetchedChar, State.dropInputs, List.drop_drop, dirAfter_xWchr]
  rfl

/-- TERM is fetched, and the reading ends (R107). -/
theorem run_term (hterm : s.mem.read s.sp = s.cfg.term) (hq : s.quietFor 1) :
    run 1 s = .next { readOn [] 1 1 s with str := false } := by
  have hfetch := step_fetch_quiet hc hb hd hp hs hq.head
  rw [fetchStep_term (s := s.dropInputs 1) _ hterm] at hfetch
  rw [run_one hfetch]
  simp [readOn, State.dropInputs, hd, hp]

/-- A block that reads a string sends its bytes one after the other, and fetches the terminator (R107, R154). -/
theorem run_string {bs : List Byte} (hbs : HoldsString s.cfg.term s.mem s.sp bs)
    (hq : s.quietFor (stringTicks s.cfg bs.length)) :
    run (stringTicks s.cfg bs.length) s = .next (afterString bs s) := by
  induction bs generalizing s with
  | nil =>
    have hone : stringTicks s.cfg ([] : List Byte).length = 1 := by simp [stringTicks]
    rw [hone] at hq
    rw [afterString, hone]
    exact run_term hc hb hd hp hs hbs hq
  | cons b rest ih =>
    obtain ⟨rfl, hchar, hrest⟩ := hbs
    rw [List.length_cons, stringTicks_succ] at hq ⊢
    rw [run_add _ (run_char hc hb hd hp hs hchar (hq.mono (Nat.le_add_right ..))), afterString_cons]
    exact ih (s := readOn (xWchr s.cfg (s.mem.read s.sp)) 1 (charTicks s.cfg) s) hc hb rfl rfl hs hrest
      (State.quietFor.drop hq rfl)

/-- After the terminator the block completes (R108). -/
theorem run_string_to_completion {bs : List Byte} (hbs : HoldsString s.cfg.term s.mem s.sp bs)
    (hq : s.quietFor (stringTicks s.cfg bs.length + 1)) :
    run (stringTicks s.cfg bs.length + 1) s = .next (completionStep ((afterString bs s).dropInputs 1)) := by
  rw [run_add 1 (run_string hc hb hd hp hs hbs (hq.mono (Nat.le_add_right ..)))]
  exact run_one (step_complete_quiet (s := afterString bs s) hc hb rfl rfl rfl (hq.drop rfl))

end

/-- Settles O42: the tick of acceptance, the ticks of the string and the tick of completion. -/
theorem wstrSendsTheString : Obligations.WstrSendsTheString := by
  unfold Obligations.WstrSendsTheString
  intro s w rest ptr bs hc idle hin hi hbs hq
  refine ⟨length_xWstr s.cfg bs, ?_⟩
  have hticks : 17 * bs.length + bs.length * (2 * s.cfg.nPw + s.cfg.nCmd) + (bs.length + 1) =
      stringTicks s.cfg bs.length := by
    unfold stringTicks charTicks
    ring
  have hafter : 1 + 17 * bs.length + bs.length * (2 * s.cfg.nPw + s.cfg.nCmd) + (bs.length + 1) =
      stringTicks s.cfg bs.length + 1 := by omega
  have hall : 2 + 17 * bs.length + bs.length * (2 * s.cfg.nPw + s.cfg.nCmd) + (bs.length + 1) =
      stringTicks s.cfg bs.length + 1 + 1 := by omega
  have hstep : step s = .next (acceptedString ptr { s with inputs := rest }) :=
    (step_of_command hc idle.busy hin hi).trans (acceptString_idle ptr idle.busy)
  rw [hafter] at hq
  rw [hafter, hall, run_succ _ hstep]
  refine (run_string_to_completion (s := acceptedString ptr { s with inputs := rest }) hc rfl idle.dly rfl rfl
    (holdsString_of_stringAt hbs) hq).trans ?_
  simp [completionStep, completeFlags, afterString, readOn, acceptedString, State.dropInputs, xWstr]

end Sys2Proof.Machine
end

section
/-! PROOF. A WSTR on a string space without TERM never ends (spec/43_byte_transfer.md R152 (e)). -/

namespace Sys2Proof.Machine

/-- The block reads a string that has no end. -/
structure State.ReadsForever (s : State) : Prop where
  config : s.cfg.ok = true
  busy : s.busy = true
  str : s.str = true
  noTerm : ∀ a : Addr, s.mem.read a ≠ s.cfg.term

/-- No step of such a block ends the string: no fetch finds TERM, and completion waits for STR to fall. -/
theorem State.ReadsForever.busyStep {s : State} (h : s.ReadsForever) : (busyStep s).ReadsForever := by
  obtain ⟨hc, hb, hs, hterm⟩ := h
  cases busyStep_cases s with
  | delay _ ht => exact ht ▸ ⟨hc, hb, hs, hterm⟩
  | execute m rest _ _ ht => exact ht ▸ ⟨by simpa using hc, by simpa using hb, by simpa using hs, by simpa using hterm⟩
  | fetch _ _ _ ht =>
    rw [ht, fetchStep_char _ (hterm s.sp)]
    exact ⟨hc, hb, hs, hterm⟩
  | complete _ _ hs' _ => exact absurd hs (by simp [hs'])

theorem run_readsForever (k : Nat) {s : State} (h : s.ReadsForever) (hq : s.quietFor k) :
    ∃ u, run k s = .next u ∧ u.ReadsForever := by
  induction k generalizing s with
  | zero => exact ⟨s, run_zero s, h⟩
  | succ k ih =>
    have h1 : (s.dropInputs 1).ReadsForever := ⟨h.config, h.busy, h.str, h.noTerm⟩
    have hstep := step_busy_quiet h.config h.busy hq.head
    obtain ⟨-, -, hins⟩ := step_frame hstep
    obtain ⟨u, hu, hforever⟩ := ih h1.busyStep (hq.tail hins)
    exact ⟨u, (run_succ k hstep).trans hu, hforever⟩

/-- Settles O44: acceptance of such a WSTR starts an endless reading, and every quiet tick goes on with it. -/
theorem wstrWithoutTermNeverEnds : Obligations.WstrWithoutTermNeverEnds := by
  unfold Obligations.WstrWithoutTermNeverEnds
  intro s t ptr k hc idle hterm ht hq
  have hnone : stringOf s.cfg.term s.mem ptr = none := Option.not_isSome_iff_eq_none.mp hterm
  have haccept : exec (.wstr ptr) s = .next (acceptedString ptr s) := acceptString_idle ptr idle.busy
  obtain rfl : acceptedString ptr s = t := Host.Outcome.next.inj (haccept.symm.trans ht)
  have hstart : (acceptedString ptr s).ReadsForever := ⟨hc, rfl, rfl, stringOf_eq_none_iff.mp hnone⟩
  obtain ⟨u, hu, h⟩ := run_readsForever k hstart hq
  exact ⟨u, hu, h.busy, h.str⟩

end Sys2Proof.Machine
end

section
/-! PROOF. The state after INIT (spec/41_initialize.md R131, R133). -/

namespace Sys2Proof.Machine

/-- RS is low and the data lines carry `n`. -/
def ShowsCommand (n : Nibble) (l : RoleBits) : Prop := getRole l .rs = false ∧ dataNibble l = n

/-- From E low a command nibble stands on the lines after its list. -/
theorem showsCommand_xNibble (cfg : Config) (n : Nibble) {l : RoleBits} (h : getRole l .e = false) :
    ShowsCommand n (latAfter (xNibble cfg n true) l) := by
  rw [latAfter_xNibble cfg n true h]
  exact ⟨getRole_rs_nibbleLines n true l, dataNibble_nibbleLines n true l⟩

/-- From E low a command byte's low nibble stands on the lines after its list. -/
theorem showsCommand_xWcmd (cfg : Config) (b : Byte) {l : RoleBits} (h : getRole l .e = false) :
    ShowsCommand (lowNibble b) (latAfter (xWcmd cfg b) l) := by
  rw [xWcmd, latAfter_xByte]
  exact showsCommand_xNibble cfg (lowNibble b) (getRole_e_xNibble cfg (highNibble b) true h)

/-- An item that sends a nibble leaves its last one standing. -/
theorem showsCommand_xItem {cfg : Config} {i : InitItem} {n : Nibble} (hi : itemLastNibble cfg i = some n)
    {l : RoleBits} (h : getRole l .e = false) : ShowsCommand n (latAfter (xItem cfg i) l) := by
  cases i with
  | nib k => exact Option.some.inj hi ▸ showsCommand_xNibble cfg k h
  | cmd b => exact Option.some.inj hi ▸ showsCommand_xWcmd cfg b h
  | clr =>
    have hclr : latAfter (xItem cfg .clr) l = latAfter (xWcmd cfg cfg.clearCode) l := latAfter_append ..
    rw [hclr]
    exact Option.some.inj hi ▸ showsCommand_xWcmd cfg cfg.clearCode h
  | wait k => cases hi

/-- An item that sends none leaves the latches. -/
theorem latAfter_xItem_of_none {cfg : Config} {i : InitItem} (hi : itemLastNibble cfg i = none) (l : RoleBits) :
    latAfter (xItem cfg i) l = l := by
  cases i with
  | wait k => rfl
  | nib k => cases hi
  | cmd b => cases hi
  | clr => cases hi

/-- The latches a series of items leaves from all low: those of its last nibble, or all low still (R133). -/
theorem latAfter_items (cfg : Config) (items : List InitItem) :
    (∀ n, (items.filterMap (itemLastNibble cfg)).getLast? = some n →
      ShowsCommand n (latAfter (items.flatMap (xItem cfg)) 0)) ∧
    ((items.filterMap (itemLastNibble cfg)).getLast? = none → latAfter (items.flatMap (xItem cfg)) 0 = 0) := by
  induction items using List.reverseRecOn with
  | nil => exact ⟨fun n h => by simp at h, fun _ => rfl⟩
  | append_singleton items i ih =>
    have hlow : getRole (latAfter (items.flatMap (xItem cfg)) 0) .e = false :=
      (Shaped.flatMap (shaped_xItem cfg) items).eLow (getRole_zero .e)
    rw [List.filterMap_append, List.flatMap_append, List.flatMap_singleton, latAfter_append]
    cases hi : itemLastNibble cfg i with
    | none => simpa [hi, latAfter_xItem_of_none hi] using ih
    | some k =>
      have hk := showsCommand_xItem hi hlow
      constructor
      · intro n hn
        obtain rfl : k = n := by simpa [hi] using hn
        exact hk
      · intro hn
        simp [hi] at hn

/-- The word of INIT decodes to it, whatever the strap (R79). -/
theorem decode_encode_init (e : Bool) (x : BitVec 16) : decode e (encode (.init x)) = .op (.init x) :=
  decodeOfEncode e (.init x) rfl

/-- Settles O45: INIT runs its list (O41), whose directions, head and series leave DIR and LAT as stated. -/
theorem initLeavesTheInitialisedState : Obligations.InitLeavesTheInitialisedState := by
  unfold Obligations.InitLeavesTheInitialisedState
  intro s x rest hc idle hin hq
  have hrun := operationRunsItsExpansion s (encode (.init x)) rest (.init x) (xInit s.cfg) hc idle hin
    (decode_encode_init _ x) rfl hq
  obtain ⟨hsome, hnone⟩ := latAfter_items s.cfg s.cfg.initSeq
  have hdir : dirAfter (xInit s.cfg) s.dir = 0 := dirAfter_xInit ..
  have hlow : getRole (latAfter (xInit s.cfg) s.lat) .e = false := eLow_xInit (loads_of_ok hc) s.lat
  refine ⟨_, hrun, hdir, hlow, rfl, rfl, ?_, ?_, ?_⟩
  · simp [Instr.opcode]
  · intro n hn
    have hshows : ShowsCommand n (latAfter (xInit s.cfg) s.lat) := latAfter_xInit s.cfg s.lat ▸ hsome n hn
    exact hshows
  · intro hn
    exact (latAfter_xInit s.cfg s.lat).trans (hnone hn)

end Sys2Proof.Machine
end

section
/-! PROOF. A presented word from its tick to the tick in which the block is idle again, and scripts of words
(spec/30_encoding.md R84; spec/40_sequencer_primitives.md R111). -/

namespace Sys2Proof.Machine

/-- From `s` to the idle state `u` the micro-ops `xs` were executed, and an INIT was among the operations if `init`. -/
structure Executed (xs : List MicroOp) (init : Bool) (s u : State) : Prop where
  idle : u.Idle
  tr : u.tr = s.tr ++ xs
  lat : u.lat = latAfter xs s.lat
  dir : u.dir = dirAfter xs s.dir
  initd : u.initd = (s.initd || init)
  mem : u.mem = s.mem
  cfg : u.cfg = s.cfg

theorem Executed.trans {xs ys : List MicroOp} {a b : Bool} {s t u : State} (hx : Executed xs a s t)
    (hy : Executed ys b t u) : Executed (xs ++ ys) (a || b) s u where
  idle := hy.idle
  tr := by rw [hy.tr, hx.tr, List.append_assoc]
  lat := by rw [hy.lat, hx.lat, latAfter_append]
  dir := by rw [hy.dir, hx.dir, dirAfter_append]
  initd := by rw [hy.initd, hx.initd, Bool.or_assoc]
  mem := hy.mem.trans hx.mem
  cfg := hy.cfg.trans hx.cfg

/-- An operation with an expansion executes it and fetches nothing. -/
theorem fullList_of_expansion {cfg : Config} (m : Memory) {i : Instr} {x : List MicroOp}
    (hx : expansion cfg i = some x) : fullList cfg m i = some x ∧ fetchTicks cfg m i = 0 := by
  cases i with
  | wstr _ => cases hx
  | init _ | strobe _ | nibble _ _ _ _ | wcmd _ _ | wchr _ _ | clear _ | setcur _ _ => exact ⟨hx, rfl⟩

/-- WSTR's string is its list, with a fetch for each byte and for the terminator (R154). -/
theorem fullList_wstr {cfg : Config} {m : Memory} {ptr : Addr} {x : List MicroOp}
    (hx : fullList cfg m (.wstr ptr) = some x) :
    ∃ bs, stringOf cfg.term m ptr = some bs ∧ x = xWstr cfg bs ∧ fetchTicks cfg m (.wstr ptr) = bs.length + 1 := by
  obtain ⟨bs, hbs, rfl⟩ := Option.map_eq_some_iff.mp hx
  exact ⟨bs, hbs, rfl, by simp [fetchTicks, hbs]⟩

/-- A string's transfer makes no role an output. -/
theorem dirAfter_xWstr (cfg : Config) (bs : List Byte) (d : RoleBits) : dirAfter (xWstr cfg bs) d = d := by
  induction bs with
  | nil => rfl
  | cons b rest ih => rw [xWstr_cons, dirAfter_append, dirAfter_xWchr, ih]

/-- A word takes at least the tick that presents it. -/
theorem wordTicks_pos {cfg : Config} {m : Memory} {w : CmdWord} {t : Nat} (h : wordTicks cfg m w = some t) : 1 ≤ t := by
  unfold wordTicks at h
  split at h
  · obtain ⟨x, -, rfl⟩ := Option.map_eq_some_iff.mp h
    unfold ticksOf
    omega
  · exact (Option.some.inj h).le

section
variable {s : State} {w : CmdWord} {rest : List TickInput} (hc : s.cfg.ok = true) (idle : s.Idle)
  (hin : s.inputs = TickInput.command w :: rest)
include hc idle hin

/-- A presented operation executes its list in its ticks (O41, O42). -/
theorem run_op {i : Instr} (hi : decode s.cfg.exposeInternal w = .op i) {x : List MicroOp}
    (hx : fullList s.cfg s.mem i = some x) {k : Nat} (hk : ticksOf x (fetchTicks s.cfg s.mem i) = k + 1)
    (hq : ({ s with inputs := rest } : State).quietFor k) :
    ∃ u, run (k + 1) s = .next u ∧ Executed x (i.opcode == 0) s u ∧ u.inputs = rest.drop k := by
  cases hexp : expansion s.cfg i with
  | some y =>
    obtain ⟨hfull, hfetch⟩ := fullList_of_expansion s.mem hexp
    obtain rfl : y = x := Option.some.inj (hfull.symm.trans hx)
    have hk1 : k = 1 + y.length + delaySum y := by simp only [ticksOf, hfetch] at hk; omega
    have hk2 : k + 1 = 2 + y.length + delaySum y := by omega
    rw [hk1] at hq
    rw [hk2, hk1]
    exact ⟨_, operationRunsItsExpansion s w rest i y hc idle hin hi hexp hq,
      ⟨⟨rfl, rfl, rfl, rfl⟩, rfl, rfl, rfl, rfl, rfl, rfl⟩, rfl⟩
  | none =>
    obtain ⟨ptr, rfl⟩ := expansion_eq_none hexp
    obtain ⟨bs, hbs, rfl, hfetch⟩ := fullList_wstr hx
    have hk1 : k = 1 + 17 * bs.length + bs.length * (2 * s.cfg.nPw + s.cfg.nCmd) + (bs.length + 1) := by
      simp only [ticksOf, hfetch, length_xWstr, delaySum_xWstr] at hk
      omega
    have hk2 : k + 1 = 2 + 17 * bs.length + bs.length * (2 * s.cfg.nPw + s.cfg.nCmd) + (bs.length + 1) := by omega
    rw [hk1] at hq
    obtain ⟨-, hrun⟩ := wstrSendsTheString s w rest ptr bs hc idle hin hi hbs hq
    rw [hk2, hk1]
    exact ⟨_, hrun, ⟨⟨rfl, rfl, rfl, rfl⟩, rfl, rfl, (dirAfter_xWstr ..).symm, (Bool.or_false _).symm, rfl, rfl⟩, rfl⟩

/-- A presented word executes its list in its ticks; an ignored one nothing in one tick (R84). -/
theorem run_word {x : List MicroOp} (hx : wordList s.cfg s.mem w = some x) {k : Nat}
    (hk : wordTicks s.cfg s.mem w = some (k + 1)) (hq : ({ s with inputs := rest } : State).quietFor k) :
    ∃ u, run (k + 1) s = .next u ∧ Executed x (isInit s.cfg.exposeInternal w) s u ∧ u.inputs = rest.drop k := by
  cases hi : decode s.cfg.exposeInternal w with
  | op i =>
    simp only [wordList, hi] at hx
    simp only [wordTicks, hi, hx, Option.map_some, Option.some.injEq] at hk
    simpa only [isInit, hi] using run_op hc idle hin hi hx hk hq
  | ignored why =>
    simp only [wordList, hi, Option.some.injEq] at hx
    simp only [wordTicks, hi, Option.some.injEq] at hk
    obtain rfl : k = 0 := by omega
    subst hx
    refine ⟨_, run_one (step_of_command_ignored hc idle.busy hin hi), ⟨⟨idle.busy, idle.dly, idle.pend, idle.str⟩,
      (List.append_nil _).symm, rfl, rfl, ?_, rfl, rfl⟩, rfl⟩
    simp [isInit, hi]

end

/-- The list and the inputs of a script are its first word's and the rest's. -/
theorem scriptList_cons {cfg : Config} {m : Memory} {w : CmdWord} {ws : List CmdWord} {xs : List MicroOp}
    (h : scriptList cfg m (w :: ws) = some xs) :
    ∃ x ys, wordList cfg m w = some x ∧ scriptList cfg m ws = some ys ∧ xs = x ++ ys := by
  unfold scriptList at h
  split at h
  · next x ys hx hys => exact ⟨x, ys, hx, hys, (Option.some.inj h).symm⟩
  · cases h

theorem scriptInputs_cons {cfg : Config} {m : Memory} {w : CmdWord} {ws : List CmdWord} {ins : List TickInput}
    (h : scriptInputs cfg m (w :: ws) = some ins) :
    ∃ k js, wordTicks cfg m w = some (k + 1) ∧ scriptInputs cfg m ws = some js ∧
      ins = TickInput.command w :: (List.replicate k TickInput.none ++ js) := by
  unfold scriptInputs at h
  split at h
  · next t js ht hjs =>
    obtain ⟨k, rfl⟩ : ∃ k, t = k + 1 := ⟨t - 1, (Nat.sub_add_cancel (wordTicks_pos ht)).symm⟩
    exact ⟨k, js, ht, hjs, (Option.some.inj h).symm⟩
  · cases h

/-- The ticks after a word are quiet until the next. -/
theorem quietFor_replicate {k : Nat} {s : State} {js : List TickInput}
    (h : s.inputs = List.replicate k TickInput.none ++ js) : s.quietFor k := by
  intro i hi
  rw [h, List.take_append_of_le_length (by simp), List.take_replicate, Nat.min_self] at hi
  obtain ⟨-, rfl⟩ := List.mem_replicate.mp hi
  rfl

/-- A script runs the lists of its words in order (R84, R223). -/
theorem run_script {ws : List CmdWord} {s : State} {ins rest : List TickInput} {xs : List MicroOp}
    (hc : s.cfg.ok = true) (idle : s.Idle) (hins : scriptInputs s.cfg s.mem ws = some ins)
    (hxs : scriptList s.cfg s.mem ws = some xs) (hin : s.inputs = ins ++ rest) :
    ∃ u, run ins.length s = .next u ∧ Executed xs (ws.any (isInit s.cfg.exposeInternal)) s u ∧ u.inputs = rest := by
  induction ws generalizing s ins xs with
  | nil =>
    obtain rfl : [] = ins := Option.some.inj hins
    obtain rfl : [] = xs := Option.some.inj hxs
    exact ⟨s, rfl, ⟨idle, (List.append_nil _).symm, rfl, rfl, (Bool.or_false _).symm, rfl, rfl⟩, hin⟩
  | cons w ws ih =>
    obtain ⟨x, ys, hx, hys, rfl⟩ := scriptList_cons hxs
    obtain ⟨k, js, hk, hjs, rfl⟩ := scriptInputs_cons hins
    rw [List.cons_append, List.append_assoc] at hin
    obtain ⟨t, hrun, hword, htin⟩ := run_word hc idle hin hx hk (quietFor_replicate rfl)
    rw [List.drop_append_of_le_length (by simp), List.drop_replicate, Nat.sub_self, List.replicate_zero,
      List.nil_append] at htin
    obtain ⟨u, hrun', hscript, huin⟩ := ih (s := t) (hword.cfg ▸ hc) hword.idle (by rw [hword.cfg, hword.mem, hjs])
      (by rw [hword.cfg, hword.mem, hys]) htin
    have hlen : (TickInput.command w :: (List.replicate k TickInput.none ++ js)).length = (k + 1) + js.length := by
      simp only [List.length_cons, List.length_append, List.length_replicate]
      omega
    rw [hword.cfg] at hscript
    exact ⟨u, by rw [hlen, run_add _ hrun, hrun'], hword.trans hscript, huin⟩

/-- What a word executes has the shape of the expansions (R115). -/
theorem shaped_wordList {cfg : Config} {m : Memory} {w : CmdWord} {x : List MicroOp} (hx : wordList cfg m w = some x) :
    Shaped cfg x := by
  unfold wordList at hx
  split at hx
  · next i _ =>
    cases hexp : expansion cfg i with
    | some y =>
      obtain ⟨hfull, -⟩ := fullList_of_expansion m hexp
      obtain rfl : y = x := Option.some.inj (hfull.symm.trans hx)
      exact shaped_of_expansion hexp
    | none =>
      obtain ⟨ptr, rfl⟩ := expansion_eq_none hexp
      obtain ⟨bs, -, rfl, -⟩ := fullList_wstr hx
      exact shaped_xWstr cfg bs
  · exact Option.some.inj hx ▸ .nil

theorem shaped_scriptList {cfg : Config} {m : Memory} {ws : List CmdWord} {xs : List MicroOp}
    (hxs : scriptList cfg m ws = some xs) : Shaped cfg xs := by
  induction ws generalizing xs with
  | nil => exact Option.some.inj hxs ▸ .nil
  | cons w ws ih =>
    obtain ⟨x, ys, hx, hys, rfl⟩ := scriptList_cons hxs
    exact (shaped_wordList hx).append (ih hys)

/-- Settles O46: `run_script`, and the shape of the lists keeps E low. -/
theorem scriptRunsItsWordsInOrder : Obligations.ScriptRunsItsWordsInOrder := by
  unfold Obligations.ScriptRunsItsWordsInOrder
  intro ws s ins rest xs hc idle hins hxs hin
  obtain ⟨u, hrun, h, huin⟩ := run_script hc idle hins hxs hin
  exact ⟨u, hrun, h.idle, h.tr, h.lat, h.dir, h.mem, h.cfg, huin, fun hlow => h.lat ▸ (shaped_scriptList hxs).eLow hlow⟩

end Sys2Proof.Machine
end

section
/-! PROOF. A script that begins with INIT, from reset (spec/70_reset_and_hazards.md R222;
spec/40_sequencer_primitives.md R116; spec/41_initialize.md R133). -/

namespace Sys2Proof.Machine

/-- The word of an INIT executes X_INIT (R130). -/
theorem wordList_of_isInit {cfg : Config} {w : CmdWord} (h : isInit cfg.exposeInternal w = true) (m : Memory) :
    wordList cfg m w = some (xInit cfg) := by
  cases hi : decode cfg.exposeInternal w with
  | ignored why => simp [isInit, hi] at h
  | op i =>
    cases i with
    | init x => simp only [wordList, hi, fullList, expansion]
    | strobe _ | nibble _ _ _ _ | wcmd _ _ | wchr _ _ | wstr _ | clear _ | setcur _ _ =>
      simp [isInit, hi, Instr.opcode] at h

/-- INIT's DIR_OUTs make all roles outputs (R131). -/
theorem dirAfter_initDirs (d : RoleBits) : dirAfter (Role.initOrder.map .dirOut) d = 0 := by
  revert d
  decide

/-- What begins with INIT is received whole: no pulse opens before its directions are set (R116, R131). -/
theorem receivedFrom_xInit_append (cfg : Config) (ys : List MicroOp) (l d : RoleBits) :
    receivedFrom (xInit cfg ++ ys) l d none = pulses (xInit cfg ++ ys) l := by
  obtain ⟨zs, hzs⟩ : ∃ zs, xInit cfg ++ ys = Role.initOrder.map .dirOut ++ zs :=
    ⟨_, by rw [xInit, List.append_assoc, List.append_assoc]⟩
  rw [hzs]
  calc receivedFrom (Role.initOrder.map .dirOut ++ zs) l d none
      = receivedFrom zs l (dirAfter (Role.initOrder.map .dirOut) d) none := rfl
    _ = pulses zs l := by rw [dirAfter_initDirs]; exact receivedFrom_outputs zs l none
    _ = pulses (Role.initOrder.map .dirOut ++ zs) l := rfl

/-- Settles O47: the script's run (O46) from the reset state; INIT's list, which comes first, makes all roles outputs,
leaves E low, and opens no pulse before. -/
theorem bootedScriptIsReceivedWhole : Obligations.BootedScriptIsReceivedWhole := by
  unfold Obligations.BootedScriptIsReceivedWhole
  intro ws s ins rest xs hc hs hfirst hins hxs
  cases ws with
  | nil => cases hfirst
  | cons w ws =>
    obtain ⟨hinit, -⟩ := Bool.and_eq_true_iff.mp hfirst
    obtain ⟨x, ys, hx, hys, rfl⟩ := scriptList_cons hxs
    obtain rfl : xInit s.cfg = x := Option.some.inj ((wordList_of_isInit hinit s.mem).symm.trans hx)
    have idle : s.Idle := hs ▸ ⟨rfl, rfl, rfl, rfl⟩
    obtain ⟨u, hrun, h, huin⟩ := run_script hc idle hins hxs (by rw [hs]; rfl)
    have htr : u.tr = xInit s.cfg ++ ys := by rw [h.tr, hs]; rfl
    refine ⟨u, hrun, h.idle.busy, ?_, ?_, ?_, ?_, huin⟩
    · rw [h.initd, List.any_cons, hinit, Bool.true_or, Bool.or_true]
    · rw [h.dir, dirAfter_append, dirAfter_xInit, dirAfter_zero]
    · rw [h.lat, latAfter_append]
      exact (shaped_scriptList hys).eLow (eLow_xInit (loads_of_ok hc) _)
    · rw [State.received, htr, h.cfg, receivedFrom_xInit_append]

end Sys2Proof.Machine
end

section
/-! PROOF. The assembler's words (spec/30_encoding.md R78, R85). -/

namespace Sys2Proof.Machine

/-- A form whose operands are in range gives its own operation. -/
theorem eq_of_guarded_op {p : Prop} [Decidable p] {i j : Instr}
    (h : (if p then some (AsmLine.op j) else none) = some (.op i)) : j = i := by
  split at h
  · injection h with h
    injection h
  · cases h

/-- Every form of R85 that is an operation is written with its ignored bits 0. -/
theorem canonical_of_parseLine {ts : List AsmToken} {i : Instr} (h : parseLine ts = some (.op i)) :
    i.canonical = true := by
  unfold parseLine at h
  split at h
  · cases h
  · cases h; rfl
  · cases h; rfl
  · exact eq_of_guarded_op h ▸ rfl
  · exact eq_of_guarded_op h ▸ rfl
  · exact eq_of_guarded_op h ▸ rfl
  · exact eq_of_guarded_op h ▸ rfl
  · cases h; rfl
  · exact eq_of_guarded_op h ▸ rfl
  · split at h
    · obtain ⟨text, -, htext⟩ := Option.map_eq_some_iff.mp h
      cases htext
    · cases h
  · cases h

/-- Settles O60: what a line gives is what its tokens parse to. -/
theorem assemblerWritesCanonicalWords : Obligations.AssemblerWritesCanonicalWords := by
  unfold Obligations.AssemblerWritesCanonicalWords
  intro line i h
  obtain ⟨ts, -, hparse⟩ := Option.bind_eq_some_iff.mp h
  exact canonical_of_parseLine hparse

end Sys2Proof.Machine
end
